-- ==== Sys2Proof/Word.lean ====
section
/-! DEFINITION. The data widths of the block (spec/00_scope.md R6, R8; spec/30_encoding.md R60): bytes, RGB565 words,
32-bit command words, RGB888 pixels and pixel grids. No width is left to the implementation. -/

namespace Sys2Proof

/-- A colour component or a stream element: an 8-bit unsigned integer (R6). -/
abbrev Byte := BitVec 8

/-- An RGB565 word: a 16-bit unsigned integer; every value is legal (R6, R62). -/
abbrev Word565 := BitVec 16

/-- A command word: 32 bits, bit 0 the least significant (R8, R66). -/
abbrev Command := BitVec 32

/-- An RGB888 pixel, the ordered triple (R, G, B) with no alpha component (R60). -/
structure Pixel where
  r : Byte
  g : Byte
  b : Byte
  deriving DecidableEq, Repr

/-- A pixel grid, held row by row from the top as `G[y][x]` (R40). That its rows have one width is the check
`rectangular` of Machine/Operands.lean (R26). -/
abbrev Grid := List (List Pixel)

end Sys2Proof
end

