-- ==== Sys2Proof/Machine/Operands.lean ====
section
/-! DEFINITION. The datapaths on operand values: the fields of an RGB565 word (spec/30_encoding.md R61, R63), the
quantizer (spec/40_encoder.md R80), the reconstruction (spec/41_decoder.md R101), and the little-endian split and join of
a word (spec/20_memory.md R44); and the shape of a grid (spec/10_state.md R26). All arithmetic is unsigned (spec/00_scope.md R13). -/

namespace Sys2Proof.Machine

/-- r5, the red field, bits [15:11] of a word (R63). -/
def redField (w : Word565) : BitVec 5 := w.extractLsb' 11 5

/-- g6, the green field, bits [10:5] of a word (R63). -/
def greenField (w : Word565) : BitVec 6 := w.extractLsb' 5 6

/-- b5, the blue field, bits [4:0] of a word (R63). -/
def blueField (w : Word565) : BitVec 5 := w.extractLsb' 0 5

/-- The quantization of R80, `((r & 0xF8) << 8) | ((g & 0xFC) << 3) | (b >> 3)` in 16 bits. It truncates (R81). -/
def quantize (p : Pixel) : Word565 :=
  ((p.r &&& 0xF8#8).setWidth 16 <<< 8) ||| ((p.g &&& 0xFC#8).setWidth 16 <<< 3) ||| (p.b.setWidth 16 >>> 3)

/-- The reconstruction of R101: each field shifted back, its low bits filled with zeros (R102; spec/90_conflicts.md C1). -/
def reconstruct (w : Word565) : Pixel where
  r := (((w >>> 11) &&& 0x1F#16) <<< 3).setWidth 8
  g := (((w >>> 5) &&& 0x3F#16) <<< 2).setWidth 8
  b := ((w &&& 0x1F#16) <<< 3).setWidth 8

/-- The byte of a word at the lower stream offset, `w[7:0]` (R44, R84). -/
def lowByte (w : Word565) : Byte := w.extractLsb' 0 8

/-- The byte of a word at the higher stream offset, `w[15:8]` (R44, R84). -/
def highByte (w : Word565) : Byte := w.extractLsb' 8 8

/-- The word of a byte pair, `b0 | (b1 << 8)` (R44, R100). -/
def joinBytes (b0 b1 : Byte) : Word565 := b0.setWidth 16 ||| (b1.setWidth 16 <<< 8)

/-! ## The shape of a grid -/

/-- The width W_s of a grid: the length of its rows; a grid of 0 rows has width 0 (R26). -/
def gridWidth {α : Type} : List (List α) → Nat
  | [] => 0
  | row :: _ => row.length

/-- The height H_s of a grid: its number of rows (R26). -/
def gridHeight {α : Type} (rows : List (List α)) : Nat := rows.length

/-- Every row has the same length (R26): only such a grid can be supplied as SRC. -/
def rectangular {α : Type} (rows : List (List α)) : Bool :=
  rows.all fun row => row.length == gridWidth rows

end Sys2Proof.Machine
end

