-- ==== Sys2Proof/Syntax.lean ====
section
/-! DEFINITION. The instruction set: the six commands of spec/30_encoding.md R66, one constructor per row of
spec/opcode_table.json, with the operands of R67. There is no other command (R75) and no pseudo-instruction (R72). -/

namespace Sys2Proof

/-- The whole command set (R66, R75). Each operand has exactly the width of its field, so that an operand out of range
cannot be written down (R23, R69). -/
inductive Instr where
  /-- Q565: quantize one RGB888 pixel (R80). -/
  | q565 (r g b : Byte)
  /-- D565: reconstruct one pixel from an RGB565 word (R101). -/
  | d565 (w : Word565)
  /-- PK16: serialize one word into two bytes, little-endian (R84). -/
  | pk16 (w : Word565)
  /-- UPK16: parse two bytes, `b0` the lower-offset one, into one word (R100). -/
  | upk16 (b0 b1 : Byte)
  /-- ENCF: encode the frame SRC into STREAM (R85). -/
  | encf
  /-- DECF: decode the frame STREAM into DST (R104). -/
  | decf
  deriving DecidableEq, Repr

end Sys2Proof
end

