-- ==== Sys2Proof/WellFormed.lean ====
section
/-! DEFINITION. Well-formedness. A term of `Instr` cannot be ill-formed: its operands have their fields' widths (R69).
What can be ill-formed is what the host writes before it becomes a command or a host action: a source line of the
assembler grammar of spec/30_encoding.md R71, whose operands are natural numbers, and a pixel grid whose rows differ in
length (`rectangular`, spec/10_state.md R26). Out-of-range values are refused here and never masked (R69). -/

namespace Sys2Proof

/-- One line of a program in the syntax of R71, with its operands as the natural numbers that were written. -/
inductive SourceLine where
  | q565 (r g b : Nat)
  | d565 (w : Nat)
  | pk16 (w : Nat)
  | upk16 (b0 b1 : Nat)
  | encf
  | decf
  /-- `.word n`: a raw command word, issued as it is. -/
  | word (n : Nat)
  /-- `.reset` -/
  | reset
  /-- `.cfg W, H` -/
  | cfg (w h : Nat)
  /-- `.src` with a grid of (R, G, B) triples, or `none`. -/
  | src (g : Option (List (List (Nat × Nat × Nat))))
  /-- `.stream` with bytes in offset order, or `none`. -/
  | stream (bs : Option (List Nat))
  deriving DecidableEq, Repr

/-- A number fits an 8-bit field (R69). -/
def fitsByte (n : Nat) : Bool := decide (n < 256)

/-- A number fits a 16-bit field (R69). -/
def fitsWord (n : Nat) : Bool := decide (n < 65536)

/-- A number fits a command word (R66). -/
def fitsCommand (n : Nat) : Bool := decide (n < 4294967296)

/-- The operands of a source line fit their fields (R69, R71), and a grid is rectangular (R26). -/
def SourceLine.wellFormed : SourceLine → Bool
  | .q565 r g b => fitsByte r && fitsByte g && fitsByte b
  | .d565 w => fitsWord w
  | .pk16 w => fitsWord w
  | .upk16 b0 b1 => fitsByte b0 && fitsByte b1
  | .encf => true
  | .decf => true
  | .word n => fitsCommand n
  | .reset => true
  | .cfg _ _ => true
  | .src none => true
  | .src (some g) =>
    Machine.rectangular g && g.all fun row => row.all fun p => fitsByte p.1 && fitsByte p.2.1 && fitsByte p.2.2
  | .stream none => true
  | .stream (some bs) => bs.all fitsByte

end Sys2Proof
end

