-- ==== Sys2Proof/Decode.lean ====
section
/-! DEFINITION. Decoding and encoding of the 32-bit command word (spec/30_encoding.md R66-R68, R70, R73): the match and
mask of each opcode-table row, the operand fields, the decoder (total; every other word is refused) and the encoder. -/

namespace Sys2Proof

/-! ## Fields of a command word (R66, R67) -/

/-- The op code, bits [31:29]. -/
def opField (c : Command) : BitVec 3 := c.extractLsb' 29 3

/-- The must-be-zero bits [28:24]. -/
def zeroField (c : Command) : BitVec 5 := c.extractLsb' 24 5

/-- Operand byte [23:16]: `r` of Q565. -/
def byte2Field (c : Command) : Byte := c.extractLsb' 16 8

/-- Operand byte [15:8]: `g` of Q565, `b1` of UPK16. -/
def byte1Field (c : Command) : Byte := c.extractLsb' 8 8

/-- Operand byte [7:0]: `b` of Q565, `b0` of UPK16. -/
def byte0Field (c : Command) : Byte := c.extractLsb' 0 8

/-- Operand word [15:0]: `w` of D565 and PK16. -/
def wordField (c : Command) : Word565 := c.extractLsb' 0 16

/-- A command selects a row when `(command & mask) == match` (R67). -/
def selects (mask pattern c : Command) : Bool := c &&& mask == pattern

/-- The decoder: the six rows of R67 in the table's order. A word that selects no row is refused (R68): reserved op
codes, non-zero must-be-zero bits, non-zero unused operand bits. -/
def decode (c : Command) : Option Instr :=
  if selects 0xFF000000#32 0x00000000#32 c then some (.q565 (byte2Field c) (byte1Field c) (byte0Field c))
  else if selects 0xFFFF0000#32 0x20000000#32 c then some (.d565 (wordField c))
  else if selects 0xFFFF0000#32 0x40000000#32 c then some (.pk16 (wordField c))
  else if selects 0xFFFF0000#32 0x60000000#32 c then some (.upk16 (byte0Field c) (byte1Field c))
  else if selects 0xFFFFFFFF#32 0x80000000#32 c then some .encf
  else if selects 0xFFFFFFFF#32 0xA0000000#32 c then some .decf
  else none

/-- The encoder: the command word of an instruction, as R73 assembles it. -/
def encode : Instr → Command
  | .q565 r g b   => 0b000#3 ++ 0b00000#5 ++ r ++ g ++ b
  | .d565 w       => 0b001#3 ++ 0b00000#5 ++ 0x00#8 ++ w
  | .pk16 w       => 0b010#3 ++ 0b00000#5 ++ 0x00#8 ++ w
  | .upk16 b0 b1  => 0b011#3 ++ 0b00000#5 ++ 0x00#8 ++ b1 ++ b0
  | .encf         => 0x80000000#32
  | .decf         => 0xA0000000#32

/-- The 32-bit command word whose low `nbits` bits are those of `w`, the bits above them zero. A command is one word
(R70), not bytes in a memory, so no byte order enters (notes/assumptions/2.md). No row has more than 32 bits. -/
def tableWord (nbits w : Nat) : Command := BitVec.ofNat 32 (w % 2 ^ nbits)

/-- The instruction the decoder reads from an opcode-table row's bits. -/
def decodeTableWord (nbits w : Nat) : Option Instr := decode (tableWord nbits w)

end Sys2Proof
end

