-- ==== Sys2Proof/Config.lean ====
section
/-! DEFINITION. What an implementation fixes (spec/00_scope.md R7): the two open parameters DIM_BITS and MAX_PIXELS.
A value of `Config` stands in State, no step changes it, and every statement holds for each value of it
(notes/assumptions/3.md). -/

namespace Sys2Proof

/-- The implementation parameters of R7. -/
structure Config where
  /-- DIM_BITS, the width of the CFG registers; `none`: the registers hold every natural number, as the model's text
  of R7 treats them. -/
  dimBits   : Option Nat
  /-- MAX_PIXELS, the largest W × H a frame operation supports; `none`: unbounded, the default of R7. -/
  maxPixels : Option Nat
  deriving DecidableEq, Repr

/-- The defaults of R7: unbounded registers, unbounded frames. -/
def Config.default : Config := { dimBits := none, maxPixels := none }

end Sys2Proof
end

