-- ==== Sys2Proof/Machine/State.lean ====
section
/-! DEFINITION. The state of the block (spec/10_state.md R21, "nothing else is state"), beside it the two things the
model carries for its own purposes: the implementation parameters (`config`) and the host's actions still to come
(`inputs`). Also the reasons a step can stop, and the state right after reset (R33). -/

namespace Sys2Proof.Machine

/-- The byte stream STREAM as (offset, byte) pairs. Its locations are the offsets 0 .. len-1 (R40), so its one canonical
form lists exactly those, in rising order (`Memory.wf` of Ops.lean); an offset not listed does not exist and reads as no
value (R34). -/
abbrev Memory := List Host.Cell

/-- The fault record of R29: the fault's cause with the information R120 lists for it. Its code and its information as
numbers are `FaultRecord.code` and `FaultRecord.info` of Flags.lean. -/
inductive FaultRecord where
  /-- Code 1, raised by DECF: byte counts (actual, expected) (R121). -/
  | sizeMismatch (actual expected : Nat)
  /-- Code 2, raised by ENCF and DECF: (CFG_W, CFG_H) (R122). -/
  | invalidDimension (w h : Nat)
  /-- Code 3, raised by ENCF: SRC is absent (R123). -/
  | decodeError
  /-- Code 4, raised by DECF: STREAM is absent (R124). -/
  | ioError
  /-- Code 5, raised by ENCF: (W_s, H_s, CFG_W, CFG_H) (R125). -/
  | gridMismatch (ws hs w h : Nat)
  deriving DecidableEq, Repr

/-- The two units that perform frame operations: ENCF writes STREAM, DECF writes DST (R128). -/
inductive FrameUnit where
  | encoder
  | decoder
  deriving DecidableEq, Repr

/-- One action of the host on the block (R35): issuing a command, or one of the actions R71 writes as a directive. -/
inductive HostInput where
  /-- Issue one command word. -/
  | command (c : Command)
  /-- Reset the block (R140). -/
  | reset
  /-- Set CFG_W and CFG_H (R22). -/
  | cfg (w h : Nat)
  /-- Supply SRC, or make it absent (R26). -/
  | src (g : Option Grid)
  /-- Supply STREAM, its bytes in offset order, or make it absent (R27). -/
  | stream (bs : Option (List Byte))
  deriving DecidableEq, Repr

/-- The architectural state of R21. An output port, SRC, STREAM or DST is an `Option` because *no value* (absent) is a
state the spec gives it (R33, R34). -/
structure State where
  /-- The implementation parameters of R7. The model's own field: no step changes it (notes/assumptions/3.md). -/
  config  : Config
  /-- What the host does next, first action first: the commands and directives of a program (R75). The model's own
  field, not state of the block (notes/assumptions/1.md). -/
  inputs  : List HostInput
  /-- CFG_W, the frame width (R22). -/
  cfgW    : Nat
  /-- CFG_H, the frame height (R22). -/
  cfgH    : Nat
  /-- Q_OUT, written by Q565 (R24). -/
  qOut    : Option Word565
  /-- R_OUT, written by D565 (R24). -/
  rOut    : Option Byte
  /-- G_OUT, written by D565 (R24). -/
  gOut    : Option Byte
  /-- B_OUT, written by D565 (R24). -/
  bOut    : Option Byte
  /-- B0_OUT, written by PK16: the byte at the lower offset (R24, R84). -/
  b0Out   : Option Byte
  /-- B1_OUT, written by PK16: the second byte (R24, R84). -/
  b1Out   : Option Byte
  /-- W_OUT, written by UPK16 (R24). -/
  wOut    : Option Word565
  /-- SRC, the source pixel grid (R26). -/
  src     : Option Grid
  /-- STREAM, the RGB565 raw stream; its length is part of the state (R27). -/
  stream  : Option Memory
  /-- DST, the reconstructed pixel grid (R28). -/
  dst     : Option Grid
  /-- FAULT: none, or the record of the fault that ended the run (R29). -/
  fault   : Option FaultRecord
  /-- REFUSED: a command of the run was refused (R30). -/
  refused : Bool
  deriving DecidableEq, Repr

/-- Why a step has no next state. The spec's own faults (codes 1 to 5) are NOT here: taking one is a next state with FAULT
set (R128). These are the cases in which the spec says that there is no step. -/
inductive Fault where
  /-- FAULT is not none, so no command has a step (R129). Raised by every command. Safe: the model stops. -/
  | runFaulted
  /-- REFUSED is true, so no command has a step (R130). Raised by every command. Safe: the model stops. -/
  | runRefused
  /-- A frame operation with W × H > MAX_PIXELS has no step: it is stuck (R7, R127). Raised by ENCF and DECF. Safe. -/
  | frameTooLarge
  /-- A byte was read at an offset that STREAM does not have (R40). Raised by DECF, in no state whose STREAM is in its
  canonical form. Safe: the model stops. -/
  | offsetNotInStream
  /-- The host has issued nothing further, so there is nothing to perform (R53, R142). Raised by `step`. Safe. -/
  | noInput
  deriving DecidableEq, Repr

/-- Why the model gives no meaning to what it is asked to do. A reserved command word is NOT here: refusing it is a next
state with REFUSED set (R130). -/
inductive Refusal where
  /-- An instruction whose meaning is not written yet, by its mnemonic. Raised by no arm of `exec` now. Safe. -/
  | notModelled (mnemonic : String)
  /-- The host action `.src` with rows of unequal length: such a grid cannot be supplied (R26). Raised by the host action.
  Safe. -/
  | raggedGrid
  /-- The host action `.cfg` with a value wider than DIM_BITS: the registers cannot hold it (R7). Raised by the host
  action. Safe. -/
  | dimensionTooWide
  deriving DecidableEq, Repr

/-- The machine right after reset (R33, R140): CFG 320 × 240, every output port with no value, SRC, STREAM and DST absent,
FAULT none, REFUSED false; the parameters at the defaults of R7, and the host yet to act. -/
def State.reset : State where
  config  := Config.default
  inputs  := []
  cfgW    := 320
  cfgH    := 240
  qOut    := none
  rOut    := none
  gOut    := none
  bOut    := none
  b0Out   := none
  b1Out   := none
  wOut    := none
  src     := none
  stream  := none
  dst     := none
  fault   := none
  refused := false

end Sys2Proof.Machine
end

