-- ==== Sys2Proof/Machine/Flags.lean ====
section
/-! DEFINITION. The status of the block. It has no flags and no condition codes (spec/00_scope.md R10, spec/10_state.md
R31), and no status register (R36); its only status is the fault record FAULT and the mark REFUSED. Here are the codes
and the recorded information of the faults (spec/60_exceptions.md R120). -/

namespace Sys2Proof.Machine

/-- The fault codes of R120. -/
def FaultRecord.code : FaultRecord → Nat
  | .sizeMismatch _ _     => 1
  | .invalidDimension _ _ => 2
  | .decodeError          => 3
  | .ioError              => 4
  | .gridMismatch _ _ _ _ => 5

/-- The information R120 lists for each code, in its order; the empty list is "none". -/
def FaultRecord.info : FaultRecord → List Nat
  | .sizeMismatch actual expected => [actual, expected]
  | .invalidDimension w h         => [w, h]
  | .decodeError                  => []
  | .ioError                      => []
  | .gridMismatch ws hs w h       => [ws, hs, w, h]

/-- The code the host reads from FAULT: 0 means no fault (R120). -/
def faultCode : Option FaultRecord → Nat
  | none   => 0
  | some r => r.code

end Sys2Proof.Machine
end

