-- ==== Sys2Proof/Machine/Ops.lean ====
section
/-! DEFINITION. The shared operations over the state: named updates of the ports, memories and registers; the byte stream
(spec/20_memory.md R40-R50); the encoding and decoding of a whole frame (spec/40_encoder.md R85, spec/41_decoder.md R104);
taking a fault (spec/60_exceptions.md R128), the end of a run (R129, R130) and refusing a command word. There is no return
from a fault: only the host's reset starts a new run (R129). -/

namespace Sys2Proof.Machine

/-! ## Named updates -/

/-- The host's actions still to come. -/
def State.setInputs (s : State) (rest : List HostInput) : State := { s with inputs := rest }

/-- Write both configuration registers (R22). -/
def State.setCfg (s : State) (w h : Nat) : State := { s with cfgW := w, cfgH := h }

/-- Drive Q_OUT (R24). -/
def State.setQOut (s : State) (v : Word565) : State := { s with qOut := some v }

/-- Drive R_OUT, G_OUT and B_OUT (R24). -/
def State.setRgbOut (s : State) (p : Pixel) : State := { s with rOut := some p.r, gOut := some p.g, bOut := some p.b }

/-- Drive B0_OUT and B1_OUT (R24). -/
def State.setBytesOut (s : State) (b0 b1 : Byte) : State := { s with b0Out := some b0, b1Out := some b1 }

/-- Drive W_OUT (R24). -/
def State.setWOut (s : State) (v : Word565) : State := { s with wOut := some v }

/-- Replace SRC as a whole, or make it absent (R26). -/
def State.setSrc (s : State) (g : Option Grid) : State := { s with src := g }

/-- Replace STREAM as a whole, content and length, or make it absent (R50). -/
def State.setStream (s : State) (m : Option Memory) : State := { s with stream := m }

/-- Replace DST as a whole, or make it absent (R28). -/
def State.setDst (s : State) (g : Option Grid) : State := { s with dst := g }

/-- Record a fault (R29). -/
def State.setFault (s : State) (r : FaultRecord) : State := { s with fault := some r }

/-- Mark the run refused (R30). -/
def State.setRefused (s : State) : State := { s with refused := true }

/-! ## The byte stream -/

/-- The canonical form of a stream: it lists exactly the offsets 0 .. len-1, in rising order (R40). Hence equal streams are
equal lists, and no offset below the length is missing. -/
def Memory.wf (m : Memory) : Bool := m.map Prod.fst == List.range m.length

/-- `MemRead(a, 1)`: the byte at offset `a`; no value at an offset the stream does not have (R9, R34, R40). -/
def Memory.read : Memory → Nat → Option Byte
  | [], _ => none
  | (k, b) :: rest, a => if k = a then some b else Memory.read rest a

/-- The cells of consecutive bytes from offset `a` on. -/
def Memory.cellsFrom : Nat → List Byte → Memory
  | _, [] => []
  | a, b :: bs => (a, b) :: Memory.cellsFrom (a + 1) bs

/-- The stream made of these bytes, the first at offset 0. -/
def Memory.ofBytes (bs : List Byte) : Memory := Memory.cellsFrom 0 bs

/-! ## Addressing (R42, R43) -/

/-- The word index of pixel `(x, y)` in a frame of width `w`: `y·w + x` (R42). -/
def wordIndex (w x y : Nat) : Nat := y * w + x

/-- The column of word index `i`: `i mod w` (R42). -/
def wordColumn (w i : Nat) : Nat := i % w

/-- The row of word index `i`: `i div w` (R42). -/
def wordRow (w i : Nat) : Nat := i / w

/-- `ea_lo`: the stream offset of the low byte of word `i` (R43). -/
def lowOffset (i : Nat) : Nat := 2 * i

/-- `ea_hi`: the stream offset of the high byte of word `i` (R43). -/
def highOffset (i : Nat) : Nat := 2 * i + 1

/-- The length of the stream of a `w` × `h` frame, computed exactly (R7, R41). -/
def frameBytes (w h : Nat) : Nat := w * h * 2

/-! ## Grids -/

/-- The grid has exactly `h` rows of exactly `w` pixels (R85, R125). On a rectangular grid with a row this is
`(W_s, H_s) = (w, h)`. -/
def hasShape (w h : Nat) (g : Grid) : Bool := g.length == h && g.all fun row => row.length == w

/-- `G[y][x]`: the pixel at column `x`, row `y`; no value outside the grid (R40). -/
def pixelAt (g : Grid) (x y : Nat) : Option Pixel := (g[y]?).bind fun row => row[x]?

/-! ## Whole frames -/

/-- The two stream bytes of one pixel: its quantized word, low byte first (R80, R84). -/
def pixelBytes (p : Pixel) : List Byte := [lowByte (quantize p), highByte (quantize p)]

/-- The bytes of a grid in row-major order: rows from the top, each left to right (R48, R85). -/
def gridBytes (g : Grid) : List Byte := g.flatMap fun row => row.flatMap pixelBytes

/-- The stream ENCF produces from a grid: headerless, every byte of it a pixel word's (R41, R85). -/
def encodeFrame (g : Grid) : Memory := Memory.ofBytes (gridBytes g)

/-- The word at index `i` of a stream, read byte by byte, little-endian (R44, R104). -/
def readWord (m : Memory) (i : Nat) : Option Word565 :=
  (m.read (lowOffset i)).bind fun b0 => (m.read (highOffset i)).map fun b1 => joinBytes b0 b1

/-- All the values of a list, if none is missing. -/
def allPresent {α : Type} : List (Option α) → Option (List α)
  | [] => some []
  | none :: _ => none
  | some a :: rest => (allPresent rest).map (a :: ·)

/-- Row `y` of the grid DECF assembles: the reconstruction of each of its words (R104). -/
def decodeRow (m : Memory) (w y : Nat) : Option (List Pixel) :=
  allPresent ((List.range w).map fun x => (readWord m (wordIndex w x y)).map reconstruct)

/-- The grid DECF assembles from a stream: word `y·w + x` at row `y`, column `x` (R104). -/
def decodeFrame (m : Memory) (w h : Nat) : Option Grid :=
  allPresent ((List.range h).map fun y => decodeRow m w y)

/-! ## Faults, refusals and the end of a run -/

/-- TAKING A FAULT (R128): FAULT is set to the record; an ENCF that faults sets STREAM absent, a DECF that faults sets DST
absent; nothing else changes. There is no vector, no saved program counter and no return (R129). -/
def raiseFault (u : FrameUnit) (r : FaultRecord) (s : State) : State :=
  match u with
  | .encoder => (s.setFault r).setStream none
  | .decoder => (s.setFault r).setDst none

/-- A command has a step only while the run has not ended: FAULT is none and REFUSED is false (R129, R130). -/
def whileRunning (s : State) (k : Host.Outcome State Fault Refusal) : Host.Outcome State Fault Refusal :=
  if s.fault.isSome then .fault .runFaulted
  else if s.refused then .fault .runRefused
  else k

/-- A command word that no row gives a meaning sets REFUSED and changes no other state (R68, R130). -/
def refuseCommand (s : State) : Host.Outcome State Fault Refusal := whileRunning s (.next s.setRefused)

/-- A frame of `w` × `h` pixels is within MAX_PIXELS (R7). -/
def frameAllowed (cfg : Config) (w h : Nat) : Bool :=
  match cfg.maxPixels with
  | none => true
  | some n => decide (w * h ≤ n)

/-- A value fits a CFG register of DIM_BITS bits (R7). -/
def dimensionFits (cfg : Config) (n : Nat) : Bool :=
  match cfg.dimBits with
  | none => true
  | some bits => decide (n < 2 ^ bits)

/-- The checks a frame operation makes once its input is there, in the order of R127: INVALID_DIMENSION, then the
MAX_PIXELS condition, on which it is stuck. -/
def frameChecks (u : FrameUnit) (s : State) (k : Host.Outcome State Fault Refusal) :
    Host.Outcome State Fault Refusal :=
  if s.cfgW = 0 ∨ s.cfgH = 0 then .next (raiseFault u (.invalidDimension s.cfgW s.cfgH) s)
  else if frameAllowed s.config s.cfgW s.cfgH then k
  else .fault .frameTooLarge

end Sys2Proof.Machine
end

