-- ==== Sys2Proof/Machine/Decoder.lean ====
section
/-! DEFINITION. The decoder family (spec/41_decoder.md): UPK16, D565 and DECF. -/

namespace Sys2Proof.Machine

/-- UPK16 (R100): W_OUT is `b0 | (b1 << 8)`. -/
def execUpk16 (b0 b1 : Byte) (s : State) : Host.Outcome State Fault Refusal :=
  whileRunning s (.next (s.setWOut (joinBytes b0 b1)))

/-- D565 (R101): R_OUT, G_OUT and B_OUT are the reconstruction of the word. -/
def execD565 (w : Word565) (s : State) : Host.Outcome State Fault Refusal :=
  whileRunning s (.next (s.setRgbOut (reconstruct w)))

/-- DECF (R104): check the length of STREAM, then parse and reconstruct every word into DST. The checks come in the order
of R127: IO_ERROR, INVALID_DIMENSION, MAX_PIXELS, SIZE_MISMATCH. No byte is read unless the length is exact (R105). -/
def execDecf (s : State) : Host.Outcome State Fault Refusal :=
  whileRunning s <|
    match s.stream with
    | none => .next (raiseFault .decoder .ioError s)
    | some m =>
      frameChecks .decoder s <|
        if m.length = frameBytes s.cfgW s.cfgH then
          match decodeFrame m s.cfgW s.cfgH with
          | some g => .next (s.setDst (some g))
          | none => .fault .offsetNotInStream
        else .next (raiseFault .decoder (.sizeMismatch m.length (frameBytes s.cfgW s.cfgH)) s)

end Sys2Proof.Machine
end

