-- ==== Sys2Proof/Machine/Encoder.lean ====
section
/-! DEFINITION. The encoder family (spec/40_encoder.md): Q565, PK16 and ENCF. -/

namespace Sys2Proof.Machine

/-- Q565 (R80): Q_OUT is the quantization of the operands. -/
def execQ565 (r g b : Byte) (s : State) : Host.Outcome State Fault Refusal :=
  whileRunning s (.next (s.setQOut (quantize { r := r, g := g, b := b })))

/-- PK16 (R84): B0_OUT is `w[7:0]`, B1_OUT is `w[15:8]`. -/
def execPk16 (w : Word565) (s : State) : Host.Outcome State Fault Refusal :=
  whileRunning s (.next (s.setBytesOut (lowByte w) (highByte w)))

/-- ENCF (R85): quantize and serialize the whole of SRC into STREAM. The checks come in the order of R127: DECODE_ERROR,
INVALID_DIMENSION, MAX_PIXELS, GRID_MISMATCH. -/
def execEncf (s : State) : Host.Outcome State Fault Refusal :=
  whileRunning s <|
    match s.src with
    | none => .next (raiseFault .encoder .decodeError s)
    | some g =>
      frameChecks .encoder s <|
        if hasShape s.cfgW s.cfgH g then .next (s.setStream (some (encodeFrame g)))
        else .next (raiseFault .encoder (.gridMismatch (gridWidth g) (gridHeight g) s.cfgW s.cfgH) s)

end Sys2Proof.Machine
end

