-- ==== Sys2Proof/Machine/Dispatch.lean ====
section
/-! DEFINITION. One arm per constructor of `Instr`. -/

namespace Sys2Proof.Machine

def exec (i : Instr) (s : State) : Host.Outcome State Fault Refusal :=
  match i with
  | .q565 r g b => Sys2Proof.Machine.execQ565 r g b s
  | .d565 w => Sys2Proof.Machine.execD565 w s
  | .pk16 w => Sys2Proof.Machine.execPk16 w s
  | .upk16 b0 b1 => Sys2Proof.Machine.execUpk16 b0 b1 s
  | .encf => Sys2Proof.Machine.execEncf s
  | .decf => Sys2Proof.Machine.execDecf s

end Sys2Proof.Machine
end

