-- ==== Sys2Proof/Machine/HostActions.lean ====
section
/-! DEFINITION. What the host does to the block between operations (spec/10_state.md R35): reset, writing the
configuration, supplying SRC and STREAM, and what it can read. A host action needs no mode and works after a run has ended
(spec/60_exceptions.md R129, R132). -/

namespace Sys2Proof.Machine

/-- Reset (R140): every state element in the value of R33. The implementation's parameters and the host's own plan are not
state of the block and stay. -/
def hostReset (s : State) : Host.Outcome State Fault Refusal :=
  .next { State.reset with config := s.config, inputs := s.inputs }

/-- Set CFG_W and CFG_H to any values the registers can hold (R7, R22). -/
def hostSetCfg (w h : Nat) (s : State) : Host.Outcome State Fault Refusal :=
  if dimensionFits s.config w && dimensionFits s.config h then .next (s.setCfg w h) else .refused .dimensionTooWide

/-- Supply SRC or make it absent; a grid with rows of unequal length cannot be supplied (R26). -/
def hostSetSrc (g : Option Grid) (s : State) : Host.Outcome State Fault Refusal :=
  match g with
  | none => .next (s.setSrc none)
  | some rows => if rectangular rows then .next (s.setSrc (some rows)) else .refused .raggedGrid

/-- Supply STREAM, a byte sequence of any length, or make it absent (R27). -/
def hostSetStream (bs : Option (List Byte)) (s : State) : Host.Outcome State Fault Refusal :=
  .next (s.setStream (bs.map Memory.ofBytes))

/-- What the host can read (R22, R35): the registers, the output ports, STREAM, DST, FAULT and REFUSED. SRC is not read
back. An element with no value reads as `none` (R34). -/
structure HostView where
  cfgW    : Nat
  cfgH    : Nat
  qOut    : Option Word565
  rOut    : Option Byte
  gOut    : Option Byte
  bOut    : Option Byte
  b0Out   : Option Byte
  b1Out   : Option Byte
  wOut    : Option Word565
  stream  : Option (List Byte)
  dst     : Option Grid
  fault   : Option (Nat × List Nat)
  refused : Bool
  deriving DecidableEq, Repr

/-- A host read (R35): it changes nothing, being a function of the state. FAULT reads as (code, info) (R29). -/
def hostView (s : State) : HostView where
  cfgW    := s.cfgW
  cfgH    := s.cfgH
  qOut    := s.qOut
  rOut    := s.rOut
  gOut    := s.gOut
  bOut    := s.bOut
  b0Out   := s.b0Out
  b1Out   := s.b1Out
  wOut    := s.wOut
  stream  := s.stream.map fun m => m.map Prod.snd
  dst     := s.dst
  fault   := s.fault.map fun r => (r.code, r.info)
  refused := s.refused

end Sys2Proof.Machine
end

