-- ==== Sys2Proof/Machine/Perform.lean ====
section
/-! DEFINITION. Performing one action of the host: a command is decoded and executed or refused (spec/30_encoding.md
R66-R68); a host action takes its effect (spec/10_state.md R35). -/

namespace Sys2Proof.Machine

/-- One command, one step (R20, R147): the decoded operation, or the refusal of a word that has no meaning (R68). -/
def performCommand (c : Command) (s : State) : Host.Outcome State Fault Refusal :=
  match decode c with
  | some i => exec i s
  | none => refuseCommand s

/-- One action of the host. -/
def performInput (a : HostInput) (s : State) : Host.Outcome State Fault Refusal :=
  match a with
  | .command c => performCommand c s
  | .reset => hostReset s
  | .cfg w h => hostSetCfg w h s
  | .src g => hostSetSrc g s
  | .stream bs => hostSetStream bs s

/-- Take the next action from the front of the host's plan, in the order issued (R53), and perform it. DESIGN CHOICE
(notes/assumptions/16.md), since R129 and R130 do not say what the host does next: a command that has no step (after a
fault, after a refusal, or stuck) stays at the front of the plan, the machine stops there, and an action planned behind
it, a reset too, is not reached; so too at a host action that is refused. -/
def performNext (s : State) : Host.Outcome State Fault Refusal :=
  match s.inputs with
  | [] => .fault .noInput
  | a :: rest => performInput a (s.setInputs rest)

/-- The host issues this command word next, before everything else it will do. -/
def issueNext (c : Command) (s : State) : State := s.setInputs (.command c :: s.inputs)

end Sys2Proof.Machine
end

