-- ==== Sys2Proof/Machine/Step.lean ====
section
/-! DEFINITION. One step: the next action of the host, taken in the order issued and performed atomically
(spec/20_memory.md R49, R53; spec/10_state.md R20). The block fetches nothing (R56): its commands come from `inputs`. -/

namespace Sys2Proof.Machine

/-- One step of the machine. -/
def step (s : State) : Host.Outcome State Fault Refusal := performNext s

/-- The state in which the very next step performs the command word with these bits (notes/assumptions/2.md). -/
def State.withFetchWord (s : State) (nbits w : Nat) : State := issueNext (tableWord nbits w) s

end Sys2Proof.Machine
end

