-- ==== Sys2Proof/Machine/Assembler.lean ====
section
/-! DEFINITION. The assembler of the spec's own syntax (spec/30_encoding.md R71-R73): the text of a line, read as a
`SourceLine`; a well-formed line, assembled into the host's action. Out-of-range operands and ragged grids are refused
(R69; spec/10_state.md R26), never masked. -/

namespace Sys2Proof.Machine

/-! ## From source lines to host actions -/

/-- A grid of numbers as a grid of pixels; used only on values that fit (R69). -/
def sourceGrid (rows : List (List (Nat × Nat × Nat))) : Grid :=
  rows.map fun row => row.map fun p =>
    { r := BitVec.ofNat 8 p.1, g := BitVec.ofNat 8 p.2.1, b := BitVec.ofNat 8 p.2.2 }

/-- The host action of a line whose operands fit (R71, R73). -/
def lineAction : SourceLine → HostInput
  | .q565 r g b   => .command (encode (.q565 (BitVec.ofNat 8 r) (BitVec.ofNat 8 g) (BitVec.ofNat 8 b)))
  | .d565 w       => .command (encode (.d565 (BitVec.ofNat 16 w)))
  | .pk16 w       => .command (encode (.pk16 (BitVec.ofNat 16 w)))
  | .upk16 b0 b1  => .command (encode (.upk16 (BitVec.ofNat 8 b0) (BitVec.ofNat 8 b1)))
  | .encf         => .command (encode .encf)
  | .decf         => .command (encode .decf)
  | .word n       => .command (BitVec.ofNat 32 n)
  | .reset        => .reset
  | .cfg w h      => .cfg w h
  | .src g        => .src (g.map sourceGrid)
  | .stream bs    => .stream (bs.map fun l => l.map (BitVec.ofNat 8))

/-- Assemble one line: refused unless it is well-formed (R69). -/
def assembleLine (l : SourceLine) : Option HostInput := if l.wellFormed then some (lineAction l) else none

/-- Assemble a program, a straight-line sequence of commands and directives (R75): refused if any line is. -/
def assemble : List SourceLine → Option (List HostInput)
  | [] => some []
  | l :: ls => (assembleLine l).bind fun a => (assemble ls).map (a :: ·)

/-! ## From text to source lines -/

/-- The tokens of a line. -/
inductive Token where
  /-- A mnemonic, a directive or `none`. -/
  | name (cs : List Char)
  | number (n : Nat)
  | comma
  | openParen
  | closeParen
  | openBracket
  | closeBracket
  deriving DecidableEq, Repr

/-- The value of a digit in a base up to 16. -/
def digitValue (base : Nat) (c : Char) : Option Nat :=
  let v :=
    if 48 ≤ c.toNat ∧ c.toNat ≤ 57 then c.toNat - 48
    else if 97 ≤ c.toNat ∧ c.toNat ≤ 102 then c.toNat - 87
    else if 65 ≤ c.toNat ∧ c.toNat ≤ 70 then c.toNat - 55
    else 16
  if v < base then some v else none

/-- The value of a run of digits, on top of those read before. -/
def digitsValue (base : Nat) : Nat → List Char → Option Nat
  | acc, [] => some acc
  | acc, c :: cs => (digitValue base c).bind fun d => digitsValue base (acc * base + d) cs

/-- A numeric operand is decimal or `0x` hexadecimal (R71). -/
def numberOf (cs : List Char) : Option Nat :=
  match cs with
  | '0' :: 'x' :: d :: ds => digitsValue 16 0 (d :: ds)
  | _ => digitsValue 10 0 cs

/-- The token of the characters collected so far, the last one first; no token where there are none. -/
def flushToken (buf : List Char) (rest : List Token) : Option (List Token) :=
  match buf.reverse with
  | [] => some rest
  | c :: cs =>
    if (digitValue 10 c).isSome then (numberOf (c :: cs)).map fun n => .number n :: rest
    else some (.name (c :: cs) :: rest)

/-- The token of a punctuation character. -/
def punctuation (c : Char) : Option Token :=
  if c = ',' then some .comma
  else if c = '(' then some .openParen
  else if c = ')' then some .closeParen
  else if c = '[' then some .openBracket
  else if c = ']' then some .closeBracket
  else none

/-- The tokens of a line. Text after `;` is a comment (R71); blanks separate tokens (notes/assumptions/11.md). -/
def tokenize : List Char → List Char → Option (List Token)
  | buf, [] => flushToken buf []
  | buf, c :: cs =>
    if c = ';' then flushToken buf []
    else if c = ' ' ∨ c = '\t' then (tokenize [] cs).bind (flushToken buf)
    else match punctuation c with
      | some t => (tokenize [] cs).bind fun ts => flushToken buf (t :: ts)
      | none => tokenize (c :: buf) cs

/-- Numbers after the first, each behind a comma, to the end of the line. -/
def moreNumbers : List Token → Option (List Nat)
  | [] => some []
  | .comma :: .number n :: ts => (moreNumbers ts).map (n :: ·)
  | _ => none

/-- The operands of a line: numbers with commas between them; a line may have none. -/
def operandNumbers : List Token → Option (List Nat)
  | [] => some []
  | .number n :: ts => (moreNumbers ts).map (n :: ·)
  | _ => none

/-- The pixels of a row after its first, up to the row's closing bracket. -/
def morePixels : List Token → Option (List (Nat × Nat × Nat) × List Token)
  | .closeBracket :: ts => some ([], ts)
  | .comma :: .openParen :: .number r :: .comma :: .number g :: .comma :: .number b :: .closeParen :: ts =>
    (morePixels ts).map fun q => ((r, g, b) :: q.1, q.2)
  | _ => none

/-- A row, behind its opening bracket. -/
def rowPixels : List Token → Option (List (Nat × Nat × Nat) × List Token)
  | .closeBracket :: ts => some ([], ts)
  | .openParen :: .number r :: .comma :: .number g :: .comma :: .number b :: .closeParen :: ts =>
    (morePixels ts).map fun q => ((r, g, b) :: q.1, q.2)
  | _ => none

/-- The rows of a grid after its first, up to the end of the line; `fuel` bounds their number. -/
def moreRows : Nat → List Token → Option (List (List (Nat × Nat × Nat)))
  | _, [.closeBracket] => some []
  | fuel + 1, .comma :: .openBracket :: ts =>
    (rowPixels ts).bind fun q => (moreRows fuel q.2).map (q.1 :: ·)
  | _, _ => none

/-- A grid `[[(R,G,B), ...], ...]`, rows top to bottom; `[]` is the grid of 0 rows (R71). -/
def gridRows (ts : List Token) : Option (List (List (Nat × Nat × Nat))) :=
  match ts with
  | [.openBracket, .closeBracket] => some []
  | .openBracket :: .openBracket :: rest =>
    (rowPixels rest).bind fun q => (moreRows rest.length q.2).map (q.1 :: ·)
  | _ => none

/-- The line of a mnemonic or directive and its numeric operands (R71). -/
def numericLine (head : List Char) (ns : List Nat) : Option SourceLine :=
  match head, ns with
  | ['Q', '5', '6', '5'], [r, g, b] => some (.q565 r g b)
  | ['D', '5', '6', '5'], [w] => some (.d565 w)
  | ['P', 'K', '1', '6'], [w] => some (.pk16 w)
  | ['U', 'P', 'K', '1', '6'], [b0, b1] => some (.upk16 b0 b1)
  | ['E', 'N', 'C', 'F'], [] => some .encf
  | ['D', 'E', 'C', 'F'], [] => some .decf
  | ['.', 'w', 'o', 'r', 'd'], [n] => some (.word n)
  | ['.', 'r', 'e', 's', 'e', 't'], [] => some .reset
  | ['.', 'c', 'f', 'g'], [w, h] => some (.cfg w h)
  | ['.', 's', 't', 'r', 'e', 'a', 'm'], bs => some (.stream (some bs))
  | _, _ => none

/-- The line of a name and the tokens behind it (R71). -/
def lineOfTokens (head : List Char) (ts : List Token) : Option SourceLine :=
  if head = ['.', 's', 'r', 'c'] then
    if ts = [.name ['n', 'o', 'n', 'e']] then some (.src none) else (gridRows ts).map fun g => .src (some g)
  else if head = ['.', 's', 't', 'r', 'e', 'a', 'm'] ∧ ts = [.name ['n', 'o', 'n', 'e']] then some (.stream none)
  else (operandNumbers ts).bind (numericLine head)

/-- Read one line of text. `none`: not in the syntax of R71. `some none`: a blank line or a comment alone. -/
def parseLine (cs : List Char) : Option (Option SourceLine) :=
  match tokenize [] cs with
  | some [] => some none
  | some (.name head :: ts) => (lineOfTokens head ts).map some
  | _ => none

/-- Read the lines of a program's text. -/
def parseProgram : List (List Char) → Option (List SourceLine)
  | [] => some []
  | l :: ls => (parseLine l).bind fun q => (parseProgram ls).map fun rest =>
    match q with
    | none => rest
    | some line => line :: rest

end Sys2Proof.Machine
end

