-- ==== Sys2Proof/Safety.lean ====
section
/-! DEFINITION. What counts as a safe run, in the terms the statements use: a run that has not ended, the ways a run ends
(spec/70_reset_and_hazards.md R142), the frame a command is stuck on (spec/00_scope.md R7), and the invariant of the
state. -/

namespace Sys2Proof.Machine

/-- The run has not ended: FAULT is none and REFUSED is false, so that a command has a step (R129, R130). -/
def State.Running (s : State) : Prop := s.fault = none ∧ s.refused = false

/-- The low-order bits that D565 fills with zeros are zero (R102). -/
def zeroFilled (p : Pixel) : Bool := p.r &&& 0x07#8 == 0#8 && p.g &&& 0x03#8 == 0#8 && p.b &&& 0x07#8 == 0#8

/-- `(R & 0xF8, G & 0xFC, B & 0xF8)` of a pixel (R107). -/
def truncated (p : Pixel) : Pixel := { r := p.r &&& 0xF8#8, g := p.g &&& 0xFC#8, b := p.b &&& 0xF8#8 }

/-- What a fault record says is so: the two lengths differ, a dimension is 0, the two shapes differ (R121, R122, R125). -/
def FaultRecord.truthful : FaultRecord → Prop
  | .sizeMismatch actual expected => actual ≠ expected
  | .invalidDimension w h => w = 0 ∨ h = 0
  | .decodeError => True
  | .ioError => True
  | .gridMismatch ws hs w h => ¬ (ws = w ∧ hs = h)

/-- The invariant of the state, which every step keeps. -/
structure State.Inv (s : State) : Prop where
  /-- STREAM is in its canonical form (R40). -/
  streamWf : ∀ m, s.stream = some m → Memory.wf m = true
  /-- SRC is rectangular (R26). -/
  srcRectangular : ∀ g, s.src = some g → rectangular g = true
  /-- DST is rectangular (R28). -/
  dstRectangular : ∀ g, s.dst = some g → rectangular g = true
  /-- Every component of DST is zero-filled (R102, R106). -/
  dstZeroFilled : ∀ g, s.dst = some g → ∀ row ∈ g, ∀ p ∈ row, zeroFilled p = true
  /-- A run does not end both ways (R129, R130). -/
  oneEnd : s.fault = none ∨ s.refused = false
  /-- FAULT records what was so (R120). -/
  faultTruthful : ∀ r, s.fault = some r → r.truthful
  /-- The configuration registers hold values of their width (R7). -/
  cfgFits : dimensionFits s.config s.cfgW = true ∧ dimensionFits s.config s.cfgH = true
  /-- The registers hold at least the value 320 (R7: `DIM_BITS >= 9`). -/
  dimBitsEnough : ∀ n, s.config.dimBits = some n → 9 ≤ n

/-- The action is a command, not one of the host's other actions (R35). -/
def HostInput.isCommand : HostInput → Bool
  | .command _ => true
  | .reset => false
  | .cfg _ _ => false
  | .src _ => false
  | .stream _ => false

/-- The operation, on this state, is a frame operation that is stuck: its input is present, no dimension is 0, and the
frame is over MAX_PIXELS (R7, R127). -/
def stuckOn (s : State) : Instr → Bool
  | .q565 _ _ _ => false
  | .d565 _ => false
  | .pk16 _ => false
  | .upk16 _ _ => false
  | .encf => s.src.isSome && s.cfgW != 0 && s.cfgH != 0 && !frameAllowed s.config s.cfgW s.cfgH
  | .decf => s.stream.isSome && s.cfgW != 0 && s.cfgH != 0 && !frameAllowed s.config s.cfgW s.cfgH

/-- The units of the block, one per operation: each writes its own elements and no other unit's, FAULT apart, which both
frame units write (R24, R37). -/
inductive OpUnit where
  | quantizer
  | reconstructor
  | serializer
  | parser
  | frameEncoder
  | frameDecoder
  deriving DecidableEq, Repr

/-- The unit that performs an operation (R24). -/
def unitOf : Instr → OpUnit
  | .q565 _ _ _ => .quantizer
  | .d565 _ => .reconstructor
  | .pk16 _ => .serializer
  | .upk16 _ _ => .parser
  | .encf => .frameEncoder
  | .decf => .frameDecoder

/-- The three ways a run ends, and being stuck, which is none of them (R142). -/
inductive RunEnd where
  | successful
  | faulted
  | refused
  | stuck
  deriving DecidableEq, Repr

/-- The actions of a plan that still belong to this run: those before the next reset, since a run goes from one reset to its
end (R12) and a reset starts one (R141). DEDUCED: notes/assumptions/14.md. -/
def actionsOfThisRun (plan : List HostInput) : List HostInput := plan.takeWhile fun a => decide (a ≠ .reset)

/-- How the run stands (R142): `none` while the host has a further command to issue that can be performed. DESIGN CHOICE
(notes/assumptions/14.md), since R142 does not say it: a further command is a command of the plan before the next reset,
whatever other actions come before it; a command behind a reset is another run's. -/
def runEnd (s : State) : Option RunEnd :=
  if s.fault.isSome then some .faulted
  else if s.refused then some .refused
  else match s.inputs with
    | .command c :: _ => if (decode c).any (stuckOn s) then some .stuck else none
    | plan => if (actionsOfThisRun plan).any HostInput.isCommand then none else some .successful

end Sys2Proof.Machine
end

