-- ==== Sys2Proof/Certificates/Slice0/Obligations.lean ====
section
/-! DEFINITION. The statements about the model, each a proposition that cites the rules of spec/ it formalises. Titles and
sources are in OBLIGATIONS.json. -/

open Sys2Proof Sys2Proof.Machine Host

/-! ## Command words -/

/-- R73: decoding an encoded instruction gives it back, with every operand at every value. -/
def Obligations.DecodeInvertsEncode : Prop := ∀ i : Instr, decode (encode i) = some i

/-- R73: a command word that decodes is the encoding of what it decodes to: no bit of it is dropped. -/
def Obligations.EncodeInvertsDecode : Prop := ∀ (c : Command) (i : Instr), decode c = some i → encode i = c

/-- R67: each row's match and mask select its mnemonic with its operand fields, no two rows overlap, and a word that no row
selects is no command. The operand field of UPK16 is, as a number, the word it parses. -/
def Obligations.CommandsSelectTheirRows : Prop :=
  ∀ c : Command,
    (c &&& 0xFF000000#32 = 0x00000000#32 →
      decode c = some (.q565 (c.extractLsb' 16 8) (c.extractLsb' 8 8) (c.extractLsb' 0 8))) ∧
    (c &&& 0xFFFF0000#32 = 0x20000000#32 → decode c = some (.d565 (c.extractLsb' 0 16))) ∧
    (c &&& 0xFFFF0000#32 = 0x40000000#32 → decode c = some (.pk16 (c.extractLsb' 0 16))) ∧
    (c &&& 0xFFFF0000#32 = 0x60000000#32 →
      decode c = some (.upk16 (c.extractLsb' 0 8) (c.extractLsb' 8 8)) ∧
      joinBytes (c.extractLsb' 0 8) (c.extractLsb' 8 8) = c.extractLsb' 0 16) ∧
    (c &&& 0xFFFFFFFF#32 = 0x80000000#32 → decode c = some .encf) ∧
    (c &&& 0xFFFFFFFF#32 = 0xA0000000#32 → decode c = some .decf) ∧
    (([(0xFF000000#32, 0x00000000#32), (0xFFFF0000#32, 0x20000000#32), (0xFFFF0000#32, 0x40000000#32),
       (0xFFFF0000#32, 0x60000000#32), (0xFFFFFFFF#32, 0x80000000#32), (0xFFFFFFFF#32, 0xA0000000#32)].filter
        fun row => c &&& row.1 == row.2).length ≤ 1) ∧
    (([(0xFF000000#32, 0x00000000#32), (0xFFFF0000#32, 0x20000000#32), (0xFFFF0000#32, 0x40000000#32),
       (0xFFFF0000#32, 0x60000000#32), (0xFFFFFFFF#32, 0x80000000#32), (0xFFFFFFFF#32, 0xA0000000#32)].filter
        fun row => c &&& row.1 == row.2) = [] ↔ decode c = none)

/-- R68, R130: a word is refused exactly when one of the four conditions of R68 holds; a refused command sets REFUSED and
changes no other state of the block; from then on no command has a step, and the run is a refused one. (That the command
leaves the host's plan, and the name of the stop, are the model's: notes/assumptions/1.md and 6.md.) -/
def Obligations.RefusedCommandsSetRefused : Prop :=
  ∀ (s : State) (c : Command) (rest : List HostInput),
    s.Running → s.inputs = .command c :: rest →
    ((opField c = 0b110#3 ∨ opField c = 0b111#3 ∨ zeroField c ≠ 0b00000#5 ∨
      ((opField c = 0b001#3 ∨ opField c = 0b010#3 ∨ opField c = 0b011#3) ∧ c.extractLsb' 16 8 ≠ 0x00#8) ∨
      ((opField c = 0b100#3 ∨ opField c = 0b101#3) ∧ c.extractLsb' 0 24 ≠ 0x000000#24)) ↔ decode c = none) ∧
    (decode c = none → step s = .next { s with inputs := rest, refused := true } ∧
      ∀ (c' : Command) (rest' : List HostInput),
        step { s with inputs := .command c' :: rest', refused := true } = .fault .runRefused ∧
        runEnd { s with inputs := .command c' :: rest', refused := true } = some .refused)

/-- The words of spec/95_test_vectors.md §2.6 decode as it says. -/
def Obligations.SpecWordsDecode : Prop :=
  decode 0x006496C8#32 = some (.q565 100#8 150#8 200#8) ∧ decode 0x200064B9#32 = some (.d565 0x64B9#16) ∧
  decode 0x400064B9#32 = some (.pk16 0x64B9#16) ∧ decode 0x600064B9#32 = some (.upk16 0xB9#8 0x64#8) ∧
  decode 0x80000000#32 = some .encf ∧ decode 0xA0000000#32 = some .decf ∧
  decode 0x2001FFFF#32 = none ∧ decode 0x80000001#32 = none ∧ decode 0x01000000#32 = none ∧ decode 0xC0000000#32 = none

/-- R69: operands of Q565, D565, PK16 and UPK16 lines that fit their fields assemble to the command that decodes to exactly those values; an operand out
of range is refused, neither masked nor spilled into another field. -/
def Obligations.OutOfRangeOperandsAreRefused : Prop :=
  (∀ r g b : Nat,
    (r < 256 ∧ g < 256 ∧ b < 256 → ∃ (c : Command) (r' g' b' : Byte), assembleLine (.q565 r g b) = some (.command c) ∧
      decode c = some (.q565 r' g' b') ∧ r'.toNat = r ∧ g'.toNat = g ∧ b'.toNat = b) ∧
    (¬ (r < 256 ∧ g < 256 ∧ b < 256) → assembleLine (.q565 r g b) = none)) ∧
  (∀ w : Nat,
    (w < 65536 → ∃ (c : Command) (w' : Word565), assembleLine (.d565 w) = some (.command c) ∧
      decode c = some (.d565 w') ∧ w'.toNat = w) ∧
    (w < 65536 → ∃ (c : Command) (w' : Word565), assembleLine (.pk16 w) = some (.command c) ∧
      decode c = some (.pk16 w') ∧ w'.toNat = w) ∧
    (¬ w < 65536 → assembleLine (.d565 w) = none ∧ assembleLine (.pk16 w) = none)) ∧
  (∀ b0 b1 : Nat,
    (b0 < 256 ∧ b1 < 256 → ∃ (c : Command) (b0' b1' : Byte), assembleLine (.upk16 b0 b1) = some (.command c) ∧
      decode c = some (.upk16 b0' b1') ∧ b0'.toNat = b0 ∧ b1'.toNat = b1) ∧
    (¬ (b0 < 256 ∧ b1 < 256) → assembleLine (.upk16 b0 b1) = none))

/-! ## Steps, the host's actions and reset -/

/-- R20, R66: a step on a command that decodes is the execution of that instruction; around it the step only takes the
command from the front of the host's plan (the model's own field, notes/assumptions/1.md). -/
def Obligations.StepPerformsTheDecodedCommand : Prop :=
  ∀ (s : State) (c : Command) (rest : List HostInput) (i : Instr),
    s.inputs = .command c :: rest → decode c = some i → step s = exec i { s with inputs := rest }

/-- R53: the host's actions are performed one at a time, in the order issued: every step takes exactly the first one. -/
def Obligations.StepsTakeActionsInOrder : Prop :=
  ∀ s t : State, step s = .next t → ∃ a : HostInput, s.inputs = a :: t.inputs

/-- R33: the reset state, element by element. -/
def Obligations.ResetStateIsAsListed : Prop :=
  State.reset.cfgW = 320 ∧ State.reset.cfgH = 240 ∧ State.reset.qOut = none ∧
  State.reset.rOut = none ∧ State.reset.gOut = none ∧ State.reset.bOut = none ∧
  State.reset.b0Out = none ∧ State.reset.b1Out = none ∧ State.reset.wOut = none ∧
  State.reset.src = none ∧ State.reset.stream = none ∧ State.reset.dst = none ∧
  State.reset.fault = none ∧ State.reset.refused = false

/-- R140: the host's reset, in every state, gives every element its reset value, and it is the only action that clears
FAULT or REFUSED. (That the parameters and the host's plan stay is the model's: notes/assumptions/1.md and 3.md.) -/
def Obligations.OnlyResetStartsANewRun : Prop :=
  (∀ (s : State) (rest : List HostInput), s.inputs = .reset :: rest →
    step s = .next { config := s.config, inputs := rest, cfgW := 320, cfgH := 240, qOut := none, rOut := none,
                     gOut := none, bOut := none, b0Out := none, b1Out := none, wOut := none, src := none,
                     stream := none, dst := none, fault := none, refused := false }) ∧
  (∀ (s t : State), step s = .next t → (∀ rest, s.inputs ≠ .reset :: rest) →
    (∀ r, s.fault = some r → t.fault = some r) ∧ (s.refused = true → t.refused = true))

/-- R129: once FAULT is not none, no command has a step, whichever word it is; the run is over and faulted; every host action
but a reset leaves FAULT as it is, and a reset starts a new run. (The name of the stop is the model's:
notes/assumptions/6.md.) -/
def Obligations.NoCommandStepsAfterAFault : Prop :=
  ∀ (s : State) (r : FaultRecord), s.fault = some r →
    (∀ i : Instr, exec i s = .fault .runFaulted) ∧
    (∀ (c : Command) (rest : List HostInput), step { s with inputs := .command c :: rest } = .fault .runFaulted) ∧
    runEnd s = some .faulted ∧
    (∀ (a : HostInput) (rest : List HostInput) (t : State), a ≠ .reset →
      step { s with inputs := a :: rest } = .next t → t.fault = some r) ∧
    (∀ rest : List HostInput, ∃ t, step { s with inputs := .reset :: rest } = .next t ∧ t.Running)

/-- R22, R7: the host writes any values the registers can hold; nothing else changes. A value wider than DIM_BITS cannot be
written (the refusal is the model's: notes/assumptions/4.md). -/
def Obligations.HostWritesTheConfiguration : Prop :=
  ∀ (s : State) (w h : Nat) (rest : List HostInput), s.inputs = .cfg w h :: rest →
    (dimensionFits s.config w = true ∧ dimensionFits s.config h = true →
      step s = .next { s with inputs := rest, cfgW := w, cfgH := h }) ∧
    (¬ (dimensionFits s.config w = true ∧ dimensionFits s.config h = true) → step s = .refused .dimensionTooWide)

/-- R26: the host supplies SRC only as a grid of rows of one length, or makes it absent; nothing else changes. -/
def Obligations.HostSuppliesRectangularGrids : Prop :=
  ∀ (s : State) (rest : List HostInput),
    (s.inputs = .src none :: rest → step s = .next { s with inputs := rest, src := none }) ∧
    (∀ g : Grid, s.inputs = .src (some g) :: rest →
      ((∀ row ∈ g, ∀ row' ∈ g, row.length = row'.length) →
        step s = .next { s with inputs := rest, src := some g }) ∧
      (¬ (∀ row ∈ g, ∀ row' ∈ g, row.length = row'.length) → step s = .refused .raggedGrid))

/-- R27: the host supplies STREAM as bytes in offset order, of any length, or makes it absent; nothing else changes. Every
offset below the length reads its byte, no other offset has a value. -/
def Obligations.HostSuppliesTheStream : Prop :=
  ∀ (s : State) (rest : List HostInput),
    (s.inputs = .stream none :: rest → step s = .next { s with inputs := rest, stream := none }) ∧
    (∀ bs : List Byte, s.inputs = .stream (some bs) :: rest → ∃ m : Memory,
      step s = .next { s with inputs := rest, stream := some m } ∧ m.length = bs.length ∧ Memory.wf m = true ∧
      ∀ a : Nat, Memory.read m a = bs[a]?)

/-- R25, R33, R34: after reset no output port, STREAM or DST yields a number to the host, and FAULT reads as none. (How
`hostView` reads FAULT is the model's: notes/assumptions/13.md.) -/
def Obligations.NothingReadsAsANumberAfterReset : Prop :=
  (hostView State.reset).qOut = none ∧ (hostView State.reset).rOut = none ∧ (hostView State.reset).gOut = none ∧
  (hostView State.reset).bOut = none ∧ (hostView State.reset).b0Out = none ∧ (hostView State.reset).b1Out = none ∧
  (hostView State.reset).wOut = none ∧ (hostView State.reset).stream = none ∧ (hostView State.reset).dst = none ∧
  (hostView State.reset).fault = none

/-! ## The per-pixel operations -/

/-- R80: Q565 drives Q_OUT with the source's formula, computed on natural numbers, and changes nothing else; its operands
are the three low bytes of its word. -/
def Obligations.Q565QuantizesByTheFormula : Prop :=
  (∀ (s : State) (r g b : Byte), s.Running → ∃ w : Word565,
    exec (.q565 r g b) s = .next { s with qOut := some w } ∧
    w.toNat = ((r.toNat &&& 0xF8) <<< 8) ||| ((g.toNat &&& 0xFC) <<< 3) ||| (b.toNat >>> 3)) ∧
  (∀ c : Command, c &&& 0xFF000000#32 = 0x00000000#32 →
    decode c = some (.q565 (c.extractLsb' 16 8) (c.extractLsb' 8 8) (c.extractLsb' 0 8)))

/-- R82: in bit-slice form, `Q_OUT = r[7:3] ++ g[7:2] ++ b[7:3]`: each lane of the result comes from its own operand. -/
def Obligations.Q565WorksLaneByLane : Prop :=
  ∀ (s : State) (r g b : Byte), s.Running → ∃ w : Word565,
    exec (.q565 r g b) s = .next { s with qOut := some w } ∧
    w = r.extractLsb' 3 5 ++ g.extractLsb' 2 6 ++ b.extractLsb' 3 5 ∧
    w.extractLsb' 11 5 = r.extractLsb' 3 5 ∧ w.extractLsb' 5 6 = g.extractLsb' 2 6 ∧
    w.extractLsb' 0 5 = b.extractLsb' 3 5

/-- R81: Q565 computes exactly the formula of R80 and the discarded low bits never change the result (truncation, not
rounding): (7, 3, 7) gives 0x0000 and (247, 251, 247) gives 0xF7DE. -/
def Obligations.Q565IgnoresTheDiscardedBits : Prop :=
  ∀ (s : State) (r g b : Byte) (lr lg lb : Byte), s.Running →
    exec (.q565 r g b) s =
      exec (.q565 ((r &&& 0xF8#8) ||| (lr &&& 0x07#8)) ((g &&& 0xFC#8) ||| (lg &&& 0x03#8))
        ((b &&& 0xF8#8) ||| (lb &&& 0x07#8))) s ∧
    (∃ w : Word565, exec (.q565 r g b) s = .next { s with qOut := some w } ∧
      w.toNat = ((r.toNat &&& 0xF8) <<< 8) ||| ((g.toNat &&& 0xFC) <<< 3) ||| (b.toNat >>> 3)) ∧
    exec (.q565 7#8 3#8 7#8) s = .next { s with qOut := some 0x0000#16 } ∧
    exec (.q565 247#8 251#8 247#8) s = .next { s with qOut := some 0xF7DE#16 }

/-- R83: Q565 is onto, and every word has exactly 256 preimages: those with each component in its field's range. -/
def Obligations.Q565HasExactly256Preimages : Prop :=
  ∀ (s : State) (w : Word565), s.Running →
    (∀ p : Pixel, exec (.q565 p.r p.g p.b) s = .next { s with qOut := some w } ↔
      (8 * (redField w).toNat ≤ p.r.toNat ∧ p.r.toNat ≤ 8 * (redField w).toNat + 7 ∧
       4 * (greenField w).toNat ≤ p.g.toNat ∧ p.g.toNat ≤ 4 * (greenField w).toNat + 3 ∧
       8 * (blueField w).toNat ≤ p.b.toNat ∧ p.b.toNat ≤ 8 * (blueField w).toNat + 7)) ∧
    (∃ l : List Pixel, l.length = 256 ∧ l.Nodup ∧
      ∀ p : Pixel, p ∈ l ↔ exec (.q565 p.r p.g p.b) s = .next { s with qOut := some w })

/-- R89: the three terms of the formula occupy disjoint bits, so its `|` is a sum, and the sum fits Q_OUT. -/
def Obligations.Q565OrIsASum : Prop :=
  ∀ (s : State) (r g b : Byte), s.Running → ∃ w : Word565,
    exec (.q565 r g b) s = .next { s with qOut := some w } ∧
    w.toNat = r.toNat / 8 * 2048 + g.toNat / 4 * 32 + b.toNat / 8

/-- R84: PK16 drives B0_OUT with `w[7:0]` and B1_OUT with `w[15:8]`, and changes nothing else; its operand is the low half
of its word. -/
def Obligations.Pk16SplitsLowByteFirst : Prop :=
  (∀ (s : State) (w : Word565), s.Running → ∃ b0 b1 : Byte,
    exec (.pk16 w) s = .next { s with b0Out := some b0, b1Out := some b1 } ∧
    b0.toNat = w.toNat % 256 ∧ b1.toNat = w.toNat / 256) ∧
  (∀ c : Command, c &&& 0xFFFF0000#32 = 0x40000000#32 → decode c = some (.pk16 (c.extractLsb' 0 16)))

/-- R100: UPK16 drives W_OUT with `b0 | (b1 << 8)`, which is `b1 ++ b0`, and changes nothing else; `b0` is the low byte of
its word, `b1` the next. -/
def Obligations.Upk16JoinsLowByteFirst : Prop :=
  (∀ (s : State) (b0 b1 : Byte), s.Running → ∃ w : Word565,
    exec (.upk16 b0 b1) s = .next { s with wOut := some w } ∧
    w.toNat = b0.toNat ||| (b1.toNat <<< 8) ∧ w = b1 ++ b0) ∧
  (∀ c : Command, c &&& 0xFFFF0000#32 = 0x60000000#32 →
    decode c = some (.upk16 (c.extractLsb' 0 8) (c.extractLsb' 8 8)))

/-- R101: D565 drives R_OUT, G_OUT and B_OUT with the source's formulas, computed on natural numbers, and changes nothing
else; its operand is the low half of its word. -/
def Obligations.D565ReconstructsByTheFormula : Prop :=
  (∀ (s : State) (w : Word565), s.Running → ∃ r g b : Byte,
    exec (.d565 w) s = .next { s with rOut := some r, gOut := some g, bOut := some b } ∧
    r.toNat = ((w.toNat >>> 11) &&& 0x1F) <<< 3 ∧ g.toNat = ((w.toNat >>> 5) &&& 0x3F) <<< 2 ∧
    b.toNat = (w.toNat &&& 0x1F) <<< 3) ∧
  (∀ c : Command, c &&& 0xFFFF0000#32 = 0x20000000#32 → decode c = some (.d565 (c.extractLsb' 0 16)))

/-- R102: D565 fills the low bits with zeros: R_OUT and B_OUT are multiples of 8 in 0..248, G_OUT of 4 in 0..252. -/
def Obligations.D565FillsWithZeros : Prop :=
  ∀ (s : State) (w : Word565), s.Running → ∃ r g b : Byte,
    exec (.d565 w) s = .next { s with rOut := some r, gOut := some g, bOut := some b } ∧
    (8 ∣ r.toNat ∧ r.toNat ≤ 248) ∧ (4 ∣ g.toNat ∧ g.toNat ≤ 252) ∧ (8 ∣ b.toNat ∧ b.toNat ≤ 248) ∧
    r &&& 0x07#8 = 0#8 ∧ g &&& 0x03#8 = 0#8 ∧ b &&& 0x07#8 = 0#8

/-- R103: D565 in bit-slice form: each component comes from its own field, with zeros below. -/
def Obligations.D565WorksLaneByLane : Prop :=
  ∀ (s : State) (w : Word565), s.Running →
    exec (.d565 w) s = .next { s with rOut := some (w.extractLsb' 11 5 ++ 0b000#3),
                                      gOut := some (w.extractLsb' 5 6 ++ 0b00#2),
                                      bOut := some (w.extractLsb' 0 5 ++ 0b000#3) }

/-- R107: quantizing a reconstructed word gives the word; reconstructing a quantized pixel gives it with its discarded bits
cleared, which is the pixel exactly when they were 0; re-quantizing gives the same word again. -/
def Obligations.QuantizeAndReconstructAreInverse : Prop :=
  (∀ (s : State) (w : Word565), s.Running → ∃ (t : State) (r g b : Byte),
    exec (.d565 w) s = .next t ∧ t = { s with rOut := some r, gOut := some g, bOut := some b } ∧
    exec (.q565 r g b) t = .next { t with qOut := some w }) ∧
  (∀ (s : State) (r g b : Byte), s.Running → ∃ (t : State) (w : Word565),
    exec (.q565 r g b) s = .next t ∧ t = { s with qOut := some w } ∧
    exec (.d565 w) t = .next { t with rOut := some (r &&& 0xF8#8), gOut := some (g &&& 0xFC#8),
                                      bOut := some (b &&& 0xF8#8) } ∧
    exec (.q565 (r &&& 0xF8#8) (g &&& 0xFC#8) (b &&& 0xF8#8)) s = .next t ∧
    ((r &&& 0xF8#8 = r ∧ g &&& 0xFC#8 = g ∧ b &&& 0xF8#8 = b) ↔
      (r &&& 0x07#8 = 0#8 ∧ g &&& 0x03#8 = 0#8 ∧ b &&& 0x07#8 = 0#8))) ∧
  (∀ (s : State) (w w' : Word565), s.Running → exec (.d565 w) s = exec (.d565 w') s → w = w')

/-- R108: UPK16 of the PK16 bytes of a word is the word, and PK16 of the UPK16 word of a byte pair is the pair. -/
def Obligations.PackAndUnpackAreInverse : Prop :=
  (∀ (s : State) (w : Word565), s.Running → ∃ (t : State) (b0 b1 : Byte),
    exec (.pk16 w) s = .next t ∧ t = { s with b0Out := some b0, b1Out := some b1 } ∧
    exec (.upk16 b0 b1) t = .next { t with wOut := some w }) ∧
  (∀ (s : State) (b0 b1 : Byte), s.Running → ∃ (t : State) (w : Word565),
    exec (.upk16 b0 b1) s = .next t ∧ t = { s with wOut := some w } ∧
    exec (.pk16 w) t = .next { t with b0Out := some b0, b1Out := some b1 })

/-- R126: Q565, D565, PK16 and UPK16 complete, with no fault and no refusal, for every operand value. -/
def Obligations.PixelOperationsNeverFault : Prop :=
  ∀ (s : State) (i : Instr), s.Running → i ≠ .encf → i ≠ .decf → ∃ t : State, exec i s = .next t ∧ t.Running

/-! ## Addressing and byte order -/

/-- R42: the word index is a bijection from the pixels of a W × H frame onto 0 .. W·H-1, with row `i div W` and column
`i mod W` as its inverse; the source's example is word index 23. -/
def Obligations.WordIndexIsABijection : Prop :=
  (∀ w h x y : Nat, x < w → y < h →
    wordIndex w x y < w * h ∧ wordColumn w (wordIndex w x y) = x ∧ wordRow w (wordIndex w x y) = y) ∧
  (∀ w h i : Nat, i < w * h →
    wordColumn w i < w ∧ wordRow w i < h ∧ wordIndex w (wordColumn w i) (wordRow w i) = i) ∧
  wordIndex 10 3 2 = 23

/-- R44: word `i` of a stream is the little-endian join of the bytes at offsets 2i and 2i+1, and those bytes are its low and
its high byte. -/
def Obligations.StreamWordsAreLittleEndian : Prop :=
  ∀ (m : Memory) (i : Nat) (w : Word565),
    readWord m i = some w ↔
      (Memory.read m (2 * i) = some (w.extractLsb' 0 8) ∧ Memory.read m (2 * i + 1) = some (w.extractLsb' 8 8))

/-! ## The frame operations -/

/-- R86 and R50: when SRC is CFG_H rows of CFG_W pixels, ENCF completes; STREAM is replaced by exactly 2·CFG_W·CFG_H bytes,
those at 2i and 2i+1 with i = y·CFG_W + x being the PK16 bytes of the Q565 word of SRC[y][x]; nothing else changes. -/
def Obligations.EncfEncodesTheFrame : Prop :=
  ∀ (s : State) (g : Grid), s.Running → s.src = some g → 0 < s.cfgW → 0 < s.cfgH →
    frameAllowed s.config s.cfgW s.cfgH = true → g.length = s.cfgH → (∀ row ∈ g, row.length = s.cfgW) →
    ∃ m : Memory, exec .encf s = .next { s with stream := some m } ∧
      m.length = 2 * s.cfgW * s.cfgH ∧ Memory.wf m = true ∧
      ∀ x y : Nat, x < s.cfgW → y < s.cfgH → ∃ p : Pixel, pixelAt g x y = some p ∧
        Memory.read m (2 * (y * s.cfgW + x)) = some ((quantize p).extractLsb' 0 8) ∧
        Memory.read m (2 * (y * s.cfgW + x) + 1) = some ((quantize p).extractLsb' 8 8)

/-- R106: when STREAM is present with exactly 2·CFG_W·CFG_H bytes, DECF completes; DST becomes CFG_H rows of CFG_W pixels,
pixel (i mod W, i div W) being the D565 of the UPK16 of bytes 2i and 2i+1, every component zero-filled; nothing else
changes. -/
def Obligations.DecfDecodesTheFrame : Prop :=
  ∀ (s : State) (m : Memory), s.Running → s.stream = some m → Memory.wf m = true → 0 < s.cfgW → 0 < s.cfgH →
    frameAllowed s.config s.cfgW s.cfgH = true → m.length = 2 * s.cfgW * s.cfgH →
    ∃ d : Grid, exec .decf s = .next { s with dst := some d } ∧
      d.length = s.cfgH ∧ (∀ row ∈ d, row.length = s.cfgW) ∧
      (∀ i : Nat, i < s.cfgW * s.cfgH → ∃ b0 b1 : Byte,
        Memory.read m (2 * i) = some b0 ∧ Memory.read m (2 * i + 1) = some b1 ∧
        pixelAt d (i % s.cfgW) (i / s.cfgW) = some (reconstruct (joinBytes b0 b1))) ∧
      (∀ row ∈ d, ∀ p ∈ row, (8 ∣ p.r.toNat ∧ p.r.toNat ≤ 248) ∧ (4 ∣ p.g.toNat ∧ p.g.toNat ≤ 252) ∧
        (8 ∣ p.b.toNat ∧ p.b.toNat ≤ 248))

/-- R123, R125: ENCF raises DECODE_ERROR when SRC is absent, whatever the dimensions, and GRID_MISMATCH when SRC is present
in another shape than CFG_W × CFG_H; STREAM becomes absent and nothing else changes. -/
def Obligations.EncfFaultsOnItsSource : Prop :=
  ∀ s : State, s.Running →
    (s.src = none → exec .encf s = .next { s with fault := some .decodeError, stream := none }) ∧
    (∀ g : Grid, s.src = some g → rectangular g = true → 0 < s.cfgW → 0 < s.cfgH →
      frameAllowed s.config s.cfgW s.cfgH = true → ¬ (gridWidth g = s.cfgW ∧ gridHeight g = s.cfgH) →
      exec .encf s = .next { s with
        fault := some (.gridMismatch (gridWidth g) (gridHeight g) s.cfgW s.cfgH), stream := none }) ∧
    FaultRecord.decodeError.code = 3 ∧ FaultRecord.decodeError.info = [] ∧
    (∀ ws hs w h : Nat, (FaultRecord.gridMismatch ws hs w h).code = 5 ∧
      (FaultRecord.gridMismatch ws hs w h).info = [ws, hs, w, h])

/-- R121, R124: DECF raises IO_ERROR when STREAM is absent, whatever the dimensions, and SIZE_MISMATCH, with the actual
and the expected byte count, when its length is not exactly CFG_W·CFG_H·2; DST becomes absent, not partial or stale, and
nothing else changes. -/
def Obligations.DecfFaultsOnItsStream : Prop :=
  ∀ s : State, s.Running →
    (s.stream = none → exec .decf s = .next { s with fault := some .ioError, dst := none }) ∧
    (∀ m : Memory, s.stream = some m → 0 < s.cfgW → 0 < s.cfgH →
      frameAllowed s.config s.cfgW s.cfgH = true → m.length ≠ s.cfgW * s.cfgH * 2 →
      exec .decf s = .next { s with
        fault := some (.sizeMismatch m.length (s.cfgW * s.cfgH * 2)), dst := none }) ∧
    FaultRecord.ioError.code = 4 ∧ FaultRecord.ioError.info = [] ∧
    (∀ actual expected : Nat, (FaultRecord.sizeMismatch actual expected).code = 1 ∧
      (FaultRecord.sizeMismatch actual expected).info = [actual, expected])

/-- R122: ENCF and DECF, their input present, raise INVALID_DIMENSION when CFG_W or CFG_H is 0, with (CFG_W, CFG_H), before
any check of size or shape. -/
def Obligations.ZeroDimensionsFault : Prop :=
  ∀ s : State, s.Running → (s.cfgW = 0 ∨ s.cfgH = 0) →
    (∀ g : Grid, s.src = some g → exec .encf s = .next { s with
      fault := some (.invalidDimension s.cfgW s.cfgH), stream := none }) ∧
    (∀ m : Memory, s.stream = some m → exec .decf s = .next { s with
      fault := some (.invalidDimension s.cfgW s.cfgH), dst := none }) ∧
    (FaultRecord.invalidDimension s.cfgW s.cfgH).code = 2 ∧
    (FaultRecord.invalidDimension s.cfgW s.cfgH).info = [s.cfgW, s.cfgH]

/-- R7, R127: over MAX_PIXELS, with the input present and no dimension 0, a frame operation has no step, whatever the shape
or the length of its input. -/
def Obligations.FramesOverMaxPixelsAreStuck : Prop :=
  ∀ (s : State) (n : Nat), s.Running → s.config.maxPixels = some n → n < s.cfgW * s.cfgH →
    (∀ g : Grid, s.src = some g → exec .encf s = .fault .frameTooLarge) ∧
    (∀ m : Memory, s.stream = some m → exec .decf s = .fault .frameTooLarge)

/-- R128: an operation that faults sets FAULT, an ENCF sets STREAM absent, a DECF sets DST absent, and nothing else
changes. -/
def Obligations.FaultEntryChangesNothingElse : Prop :=
  ∀ (i : Instr) (s t : State), exec i s = .next t → t.fault ≠ none →
    ∃ r : FaultRecord,
      (i = .encf ∧ t = { s with fault := some r, stream := none }) ∨
      (i = .decf ∧ t = { s with fault := some r, dst := none })

/-- R24, R37: an operation writes only its own output ports, ENCF only STREAM and FAULT, DECF only DST and FAULT; no
operation writes CFG_W, CFG_H, SRC or REFUSED, the parameters or the host's plan. -/
def Obligations.OperationsWriteOnlyTheirOwn : Prop :=
  ∀ (i : Instr) (s t : State), exec i s = .next t →
    (t.config = s.config ∧ t.inputs = s.inputs ∧ t.cfgW = s.cfgW ∧ t.cfgH = s.cfgH ∧ t.src = s.src ∧
      t.refused = s.refused) ∧
    ((∀ r g b, i ≠ .q565 r g b) → t.qOut = s.qOut) ∧
    ((∀ w, i ≠ .d565 w) → t.rOut = s.rOut ∧ t.gOut = s.gOut ∧ t.bOut = s.bOut) ∧
    ((∀ w, i ≠ .pk16 w) → t.b0Out = s.b0Out ∧ t.b1Out = s.b1Out) ∧
    ((∀ b0 b1, i ≠ .upk16 b0 b1) → t.wOut = s.wOut) ∧
    (i ≠ .encf → t.stream = s.stream) ∧ (i ≠ .decf → t.dst = s.dst) ∧
    (i ≠ .encf → i ≠ .decf → t.fault = s.fault)

/-- R87: what ENCF does to STREAM and FAULT, and whether it has a step at all, depends on CFG_W, CFG_H and SRC alone (of an
implementation with given parameters). -/
def Obligations.EncfDependsOnlyOnItsInputs : Prop :=
  ∀ s s' : State, s.Running → s'.Running → s.config = s'.config → s.cfgW = s'.cfgW → s.cfgH = s'.cfgH → s.src = s'.src →
    ((∃ t, exec .encf s = .next t) ↔ (∃ t', exec .encf s' = .next t')) ∧
    (∀ t t' : State, exec .encf s = .next t → exec .encf s' = .next t' → t.stream = t'.stream ∧ t.fault = t'.fault)

/-- R110: what DECF does to DST and FAULT, and whether it has a step at all, depends on CFG_W, CFG_H and STREAM alone (of an
implementation with given parameters). -/
def Obligations.DecfDependsOnlyOnItsInputs : Prop :=
  ∀ s s' : State, s.Running → s'.Running → s.config = s'.config → s.cfgW = s'.cfgW → s.cfgH = s'.cfgH →
    s.stream = s'.stream →
    ((∃ t, exec .decf s = .next t) ↔ (∃ t', exec .decf s' = .next t')) ∧
    (∀ t t' : State, exec .decf s = .next t → exec .decf s' = .next t' → t.dst = t'.dst ∧ t.fault = t'.fault)

/-- From R52 and R37: running an operation again, right after it succeeded, leaves the state as it is, since it writes none
of its own inputs. (R52 itself, over any two states with the same inputs, is SameInputsGiveTheSameResult.) -/
def Obligations.RepeatingAnOperationChangesNothing : Prop :=
  ∀ (i : Instr) (s t : State), exec i s = .next t → t.fault = none → exec i t = .next t

/-- R37: a per-pixel operation commutes with every operation of another unit that succeeds. -/
def Obligations.PixelOperationsCommute : Prop :=
  ∀ (i j : Instr) (s u : State), i ≠ .encf → i ≠ .decf → unitOf i ≠ unitOf j → u.fault = none →
    ((∃ t, exec i s = .next t ∧ exec j t = .next u) ↔ (∃ t, exec j s = .next t ∧ exec i t = .next u))

/-- R109: after a successful ENCF, a DECF with the same CFG and the same STREAM succeeds, whatever else has changed in
between, and DST[y][x] is the source pixel with its discarded bits cleared; encoding that DST again, with the same CFG,
gives the same STREAM byte for byte. -/
def Obligations.FrameRoundTrip : Prop :=
  ∀ (s t t' : State) (g : Grid), s.src = some g → exec .encf s = .next t → t.fault = none →
    t'.Running → t'.config = s.config → t'.cfgW = s.cfgW → t'.cfgH = s.cfgH → t'.stream = t.stream →
    ∃ (u : State) (d : Grid), exec .decf t' = .next u ∧ u.fault = none ∧ u.dst = some d ∧
      (∀ x y : Nat, x < s.cfgW → y < s.cfgH → ∃ p : Pixel, pixelAt g x y = some p ∧
        pixelAt d x y = some { r := p.r &&& 0xF8#8, g := p.g &&& 0xFC#8, b := p.b &&& 0xF8#8 }) ∧
      (∀ v : State, v.Running → v.config = s.config → v.cfgW = s.cfgW → v.cfgH = s.cfgH → v.src = some d →
        exec .encf v = .next { v with stream := t.stream })

/-- R144: a stream encoded at W1 × H1 passes the check at every W2 × H2 with the same product; word i then lands at
(i mod W2, i div W2), without any fault. -/
def Obligations.OtherDimensionsRearrangeTheFrame : Prop :=
  ∀ (s t t' : State) (g : Grid), s.src = some g → exec .encf s = .next t → t.fault = none →
    t'.Running → t'.config = s.config → t'.cfgW * t'.cfgH = s.cfgW * s.cfgH → t'.stream = t.stream →
    ∃ (u : State) (d : Grid), exec .decf t' = .next u ∧ u.fault = none ∧ u.dst = some d ∧
      ∀ i : Nat, i < s.cfgW * s.cfgH → ∃ p : Pixel, pixelAt g (i % s.cfgW) (i / s.cfgW) = some p ∧
        pixelAt d (i % t'.cfgW) (i / t'.cfgW) = some (truncated p)

/-! ## The whole machine -/

/-- R142, R147: in a state that meets the invariant, the command the host issues next has a step exactly while the run has
not ended and is not stuck; the one command that has no step in a running run is a frame operation over MAX_PIXELS. (The
name of that stop is the model's, notes/assumptions/6.md; how a run stands is `runEnd`, notes/assumptions/14.md.) -/
def Obligations.CommandsStepExactlyWhileTheRunGoesOn : Prop :=
  ∀ (s : State) (c : Command) (rest : List HostInput), s.Inv → s.inputs = .command c :: rest →
    ((∃ t, step s = .next t) ↔ runEnd s = none) ∧
    (s.Running → (∀ t, step s ≠ .next t) →
      step s = .fault .frameTooLarge ∧ ∃ i : Instr, decode c = some i ∧ (i = .encf ∨ i = .decf) ∧
        ∃ n, s.config.maxPixels = some n ∧ n < s.cfgW * s.cfgH)

/-- Every step, a command or a host action, keeps the invariant: STREAM in its canonical form, SRC and DST rectangular, every
component of DST zero-filled, at most one way the run has ended, FAULT telling the truth, the registers within their
width. -/
def Obligations.StepKeepsInvariant : Prop := ∀ s t : State, s.Inv → step s = .next t → t.Inv

/-- The reset state meets the invariant. -/
def Obligations.ResetMeetsInvariant : Prop := State.reset.Inv

/-- R7: no step changes the implementation parameters (the model's own field, notes/assumptions/3.md). -/
def Obligations.ParametersNeverChange : Prop := ∀ s t : State, step s = .next t → t.config = s.config

/-! ## Reading, repeating, directives and the end of a run -/

/-- R22, R34, R35: in every state the host reads each register and port as the state holds it, *no value* where it has none;
STREAM as its bytes in offset order; DST, REFUSED and FAULT as they stand. A read of CFG_W or CFG_H returns what was
written. (That a read is a function of the state, and that FAULT reads as its code and a list of numbers, is the model's:
notes/assumptions/13.md.) -/
def Obligations.HostReadsWhatTheStateHolds : Prop :=
  ∀ s : State,
    ((hostView s).cfgW = s.cfgW ∧ (hostView s).cfgH = s.cfgH ∧ (hostView s).qOut = s.qOut ∧
      (hostView s).rOut = s.rOut ∧ (hostView s).gOut = s.gOut ∧ (hostView s).bOut = s.bOut ∧
      (hostView s).b0Out = s.b0Out ∧ (hostView s).b1Out = s.b1Out ∧ (hostView s).wOut = s.wOut ∧
      (hostView s).dst = s.dst ∧ (hostView s).refused = s.refused) ∧
    (s.stream = none → (hostView s).stream = none) ∧
    (∀ m : Memory, s.stream = some m → Memory.wf m = true → ∃ bs : List Byte,
      (hostView s).stream = some bs ∧ bs.length = m.length ∧ ∀ a : Nat, bs[a]? = Memory.read m a) ∧
    (s.fault = none → (hostView s).fault = none) ∧
    (∀ r : FaultRecord, s.fault = some r → (hostView s).fault = some (r.code, r.info)) ∧
    (∀ (w h : Nat) (rest : List HostInput) (t : State), s.inputs = .cfg w h :: rest → step s = .next t →
      (hostView t).cfgW = w ∧ (hostView t).cfgH = h) ∧
    (∀ (bs : List Byte) (rest : List HostInput) (t : State), s.inputs = .stream (some bs) :: rest → step s = .next t →
      (hostView t).stream = some bs)

/-- R52: the result of an operation is determined by its inputs (R37). In any two running states of an implementation with
given parameters that agree on what the operation reads, it stops in both alike, or it answers next states that agree on
everything it writes. -/
def Obligations.SameInputsGiveTheSameResult : Prop :=
  ∀ (i : Instr) (s s' : State), s.Running → s'.Running → s.config = s'.config →
    (i = .encf → s.cfgW = s'.cfgW ∧ s.cfgH = s'.cfgH ∧ s.src = s'.src) →
    (i = .decf → s.cfgW = s'.cfgW ∧ s.cfgH = s'.cfgH ∧ s.stream = s'.stream) →
    (∀ f : Fault, exec i s = .fault f → exec i s' = .fault f) ∧
    (∀ t : State, exec i s = .next t → ∃ t' : State, exec i s' = .next t' ∧ t.fault = t'.fault ∧
      (∀ r g b, i = .q565 r g b → t.qOut = t'.qOut) ∧
      (∀ w, i = .d565 w → t.rOut = t'.rOut ∧ t.gOut = t'.gOut ∧ t.bOut = t'.bOut) ∧
      (∀ w, i = .pk16 w → t.b0Out = t'.b0Out ∧ t.b1Out = t'.b1Out) ∧
      (∀ b0 b1, i = .upk16 b0 b1 → t.wOut = t'.wOut) ∧
      (i = .encf → t.stream = t'.stream) ∧ (i = .decf → t.dst = t'.dst))

/-- R66, R69, R70, R71 (with R26, R27): the numbers of `.word`, `.src` and `.stream` lines. A raw word below 2^32 is issued as
it is; a rectangular grid of components below 256 and a list of bytes below 256 are supplied with exactly those values;
every other such line is refused, never masked. `none` makes the memory absent. `.cfg` takes any two numbers: whether they
fit the registers is checked when the host writes them (notes/assumptions/4.md). -/
def Obligations.OutOfRangeDirectivesAreRefused : Prop :=
  (∀ n : Nat,
    (n < 4294967296 → ∃ c : Command, assembleLine (.word n) = some (.command c) ∧ c.toNat = n) ∧
    (¬ n < 4294967296 → assembleLine (.word n) = none)) ∧
  (∀ g : List (List (Nat × Nat × Nat)),
    ((∀ row ∈ g, ∀ row' ∈ g, row.length = row'.length) ∧
        (∀ row ∈ g, ∀ p ∈ row, p.1 < 256 ∧ p.2.1 < 256 ∧ p.2.2 < 256) →
      ∃ g' : Grid, assembleLine (.src (some g)) = some (.src (some g')) ∧
        g'.map (fun row => row.map fun p => (p.r.toNat, p.g.toNat, p.b.toNat)) = g) ∧
    (¬ ((∀ row ∈ g, ∀ row' ∈ g, row.length = row'.length) ∧
        (∀ row ∈ g, ∀ p ∈ row, p.1 < 256 ∧ p.2.1 < 256 ∧ p.2.2 < 256)) →
      assembleLine (.src (some g)) = none)) ∧
  (∀ l : List Nat,
    ((∀ n ∈ l, n < 256) → ∃ bs : List Byte, assembleLine (.stream (some l)) = some (.stream (some bs)) ∧
      bs.map BitVec.toNat = l) ∧
    (¬ (∀ n ∈ l, n < 256) → assembleLine (.stream (some l)) = none)) ∧
  assembleLine (.src none) = some (.src none) ∧ assembleLine (.stream none) = some (.stream none) ∧
  (∀ w h : Nat, assembleLine (.cfg w h) = some (.cfg w h))

/-- R142: when a run is faulted, refused, stuck or successful, of a state that meets the invariant. That a further command
means one before the next reset in the plan is the model's reading: notes/assumptions/14.md. -/
def Obligations.RunsEndInOneOfThreeWays : Prop :=
  ∀ s : State, s.Inv →
    (runEnd s = some .faulted ↔ s.fault ≠ none) ∧
    (runEnd s = some .refused ↔ s.refused = true) ∧
    (runEnd s = some .successful ↔ s.fault = none ∧ s.refused = false ∧
      ∀ (before : List HostInput) (c : Command) (rest : List HostInput),
        s.inputs = before ++ .command c :: rest → HostInput.reset ∈ before) ∧
    (runEnd s = some .stuck ↔ s.fault = none ∧ s.refused = false ∧
      ∃ (c : Command) (rest : List HostInput), s.inputs = .command c :: rest ∧
        ((decode c = some .encf ∧ s.src ≠ none) ∨ (decode c = some .decf ∧ s.stream ≠ none)) ∧
        0 < s.cfgW ∧ 0 < s.cfgH ∧ ∃ n, s.config.maxPixels = some n ∧ n < s.cfgW * s.cfgH)
end

