-- ==== Sys2Proof/Laws/Decode.lean ====
section
/-! SUPPORT. The match and mask of an opcode-table row, read as fields of the command word. -/

namespace Sys2Proof

/-- A row whose mask is the high byte selects by the high byte. -/
theorem selects_highByte (p : BitVec 8) (c : Command) :
    selects 0xFF000000#32 (p ++ 0#24) c = true ↔ c.extractLsb' 24 8 = p := by
  simp only [selects, beq_iff_eq]
  constructor
  · intro h
    apply BitVec.eq_of_getLsbD_eq
    intro i hi
    have hb := congrArg (fun b => b.getLsbD (24 + i)) h
    rw [BitVec.getLsbD_append, BitVec.getLsbD_and] at hb
    interval_cases i <;> simpa using hb
  · rintro rfl
    apply BitVec.eq_of_getLsbD_eq
    intro i hi
    rw [BitVec.getLsbD_append]
    interval_cases i <;> simp

/-- A row whose mask is the high half selects by the high half. -/
theorem selects_highHalf (p : BitVec 16) (c : Command) :
    selects 0xFFFF0000#32 (p ++ 0#16) c = true ↔ c.extractLsb' 16 16 = p := by
  simp only [selects, beq_iff_eq]
  constructor
  · intro h
    apply BitVec.eq_of_getLsbD_eq
    intro i hi
    have hb := congrArg (fun b => b.getLsbD (16 + i)) h
    rw [BitVec.getLsbD_append, BitVec.getLsbD_and] at hb
    interval_cases i <;> simpa using hb
  · rintro rfl
    apply BitVec.eq_of_getLsbD_eq
    intro i hi
    rw [BitVec.getLsbD_append]
    interval_cases i <;> simp

/-- A row whose mask is the whole word selects one word. -/
theorem selects_all (p c : Command) : selects 0xFFFFFFFF#32 p c = true ↔ c = p := by
  have h : c &&& 0xFFFFFFFF#32 = c := BitVec.and_allOnes
  simp [selects, h]

/-- Everything the decoder can answer: each row by the fields it fixes, with its operand fields. -/
theorem decode_cases (c : Command) :
    (c.extractLsb' 24 8 = 0x00#8 ∧ decode c = some (.q565 (byte2Field c) (byte1Field c) (byte0Field c))) ∨
    (c.extractLsb' 16 16 = 0x2000#16 ∧ decode c = some (.d565 (wordField c))) ∨
    (c.extractLsb' 16 16 = 0x4000#16 ∧ decode c = some (.pk16 (wordField c))) ∨
    (c.extractLsb' 16 16 = 0x6000#16 ∧ decode c = some (.upk16 (byte0Field c) (byte1Field c))) ∨
    (c = 0x80000000#32 ∧ decode c = some .encf) ∨
    (c = 0xA0000000#32 ∧ decode c = some .decf) ∨
    (c.extractLsb' 24 8 ≠ 0x00#8 ∧ c.extractLsb' 16 16 ≠ 0x2000#16 ∧ c.extractLsb' 16 16 ≠ 0x4000#16 ∧
      c.extractLsb' 16 16 ≠ 0x6000#16 ∧ c ≠ 0x80000000#32 ∧ c ≠ 0xA0000000#32 ∧ decode c = none) := by
  have h0 := selects_highByte 0x00#8 c
  have h1 := selects_highHalf 0x2000#16 c
  have h2 := selects_highHalf 0x4000#16 c
  have h3 := selects_highHalf 0x6000#16 c
  have h4 := selects_all 0x80000000#32 c
  have h5 := selects_all 0xA0000000#32 c
  change selects 0xFF000000#32 0x00000000#32 c = true ↔ _ at h0
  change selects 0xFFFF0000#32 0x20000000#32 c = true ↔ _ at h1
  change selects 0xFFFF0000#32 0x40000000#32 c = true ↔ _ at h2
  change selects 0xFFFF0000#32 0x60000000#32 c = true ↔ _ at h3
  unfold decode
  split
  · exact .inl ⟨h0.mp ‹_›, rfl⟩
  split
  · exact .inr (.inl ⟨h1.mp ‹_›, rfl⟩)
  split
  · exact .inr (.inr (.inl ⟨h2.mp ‹_›, rfl⟩))
  split
  · exact .inr (.inr (.inr (.inl ⟨h3.mp ‹_›, rfl⟩)))
  split
  · exact .inr (.inr (.inr (.inr (.inl ⟨h4.mp ‹_›, rfl⟩))))
  split
  · exact .inr (.inr (.inr (.inr (.inr (.inl ⟨h5.mp ‹_›, rfl⟩)))))
  · rename_i n0 n1 n2 n3 n4 n5
    exact .inr (.inr (.inr (.inr (.inr (.inr ⟨fun h => n0 (h0.mpr h), fun h => n1 (h1.mpr h), fun h => n2 (h2.mpr h),
      fun h => n3 (h3.mpr h), fun h => n4 (h4.mpr h), fun h => n5 (h5.mpr h), rfl⟩)))))

end Sys2Proof
end

