-- ==== Sys2Proof/Laws/State.lean ====
section
/-! SUPPORT. One lemma per field per named update of the state (Machine/Ops.lean), each true by rfl, so that no proof
unfolds a record update. -/

namespace Sys2Proof.Machine

@[simp] theorem State.setInputs_config (s : State) (rest : List HostInput) : (s.setInputs rest).config = s.config := rfl
@[simp] theorem State.setInputs_inputs (s : State) (rest : List HostInput) : (s.setInputs rest).inputs = rest := rfl
@[simp] theorem State.setInputs_cfgW (s : State) (rest : List HostInput) : (s.setInputs rest).cfgW = s.cfgW := rfl
@[simp] theorem State.setInputs_cfgH (s : State) (rest : List HostInput) : (s.setInputs rest).cfgH = s.cfgH := rfl
@[simp] theorem State.setInputs_qOut (s : State) (rest : List HostInput) : (s.setInputs rest).qOut = s.qOut := rfl
@[simp] theorem State.setInputs_rOut (s : State) (rest : List HostInput) : (s.setInputs rest).rOut = s.rOut := rfl
@[simp] theorem State.setInputs_gOut (s : State) (rest : List HostInput) : (s.setInputs rest).gOut = s.gOut := rfl
@[simp] theorem State.setInputs_bOut (s : State) (rest : List HostInput) : (s.setInputs rest).bOut = s.bOut := rfl
@[simp] theorem State.setInputs_b0Out (s : State) (rest : List HostInput) : (s.setInputs rest).b0Out = s.b0Out := rfl
@[simp] theorem State.setInputs_b1Out (s : State) (rest : List HostInput) : (s.setInputs rest).b1Out = s.b1Out := rfl
@[simp] theorem State.setInputs_wOut (s : State) (rest : List HostInput) : (s.setInputs rest).wOut = s.wOut := rfl
@[simp] theorem State.setInputs_src (s : State) (rest : List HostInput) : (s.setInputs rest).src = s.src := rfl
@[simp] theorem State.setInputs_stream (s : State) (rest : List HostInput) : (s.setInputs rest).stream = s.stream := rfl
@[simp] theorem State.setInputs_dst (s : State) (rest : List HostInput) : (s.setInputs rest).dst = s.dst := rfl
@[simp] theorem State.setInputs_fault (s : State) (rest : List HostInput) : (s.setInputs rest).fault = s.fault := rfl
@[simp] theorem State.setInputs_refused (s : State) (rest : List HostInput) : (s.setInputs rest).refused = s.refused := rfl

@[simp] theorem State.setCfg_config (s : State) (w h : Nat) : (s.setCfg w h).config = s.config := rfl
@[simp] theorem State.setCfg_inputs (s : State) (w h : Nat) : (s.setCfg w h).inputs = s.inputs := rfl
@[simp] theorem State.setCfg_cfgW (s : State) (w h : Nat) : (s.setCfg w h).cfgW = w := rfl
@[simp] theorem State.setCfg_cfgH (s : State) (w h : Nat) : (s.setCfg w h).cfgH = h := rfl
@[simp] theorem State.setCfg_qOut (s : State) (w h : Nat) : (s.setCfg w h).qOut = s.qOut := rfl
@[simp] theorem State.setCfg_rOut (s : State) (w h : Nat) : (s.setCfg w h).rOut = s.rOut := rfl
@[simp] theorem State.setCfg_gOut (s : State) (w h : Nat) : (s.setCfg w h).gOut = s.gOut := rfl
@[simp] theorem State.setCfg_bOut (s : State) (w h : Nat) : (s.setCfg w h).bOut = s.bOut := rfl
@[simp] theorem State.setCfg_b0Out (s : State) (w h : Nat) : (s.setCfg w h).b0Out = s.b0Out := rfl
@[simp] theorem State.setCfg_b1Out (s : State) (w h : Nat) : (s.setCfg w h).b1Out = s.b1Out := rfl
@[simp] theorem State.setCfg_wOut (s : State) (w h : Nat) : (s.setCfg w h).wOut = s.wOut := rfl
@[simp] theorem State.setCfg_src (s : State) (w h : Nat) : (s.setCfg w h).src = s.src := rfl
@[simp] theorem State.setCfg_stream (s : State) (w h : Nat) : (s.setCfg w h).stream = s.stream := rfl
@[simp] theorem State.setCfg_dst (s : State) (w h : Nat) : (s.setCfg w h).dst = s.dst := rfl
@[simp] theorem State.setCfg_fault (s : State) (w h : Nat) : (s.setCfg w h).fault = s.fault := rfl
@[simp] theorem State.setCfg_refused (s : State) (w h : Nat) : (s.setCfg w h).refused = s.refused := rfl

@[simp] theorem State.setQOut_config (s : State) (v : Word565) : (s.setQOut v).config = s.config := rfl
@[simp] theorem State.setQOut_inputs (s : State) (v : Word565) : (s.setQOut v).inputs = s.inputs := rfl
@[simp] theorem State.setQOut_cfgW (s : State) (v : Word565) : (s.setQOut v).cfgW = s.cfgW := rfl
@[simp] theorem State.setQOut_cfgH (s : State) (v : Word565) : (s.setQOut v).cfgH = s.cfgH := rfl
@[simp] theorem State.setQOut_qOut (s : State) (v : Word565) : (s.setQOut v).qOut = some v := rfl
@[simp] theorem State.setQOut_rOut (s : State) (v : Word565) : (s.setQOut v).rOut = s.rOut := rfl
@[simp] theorem State.setQOut_gOut (s : State) (v : Word565) : (s.setQOut v).gOut = s.gOut := rfl
@[simp] theorem State.setQOut_bOut (s : State) (v : Word565) : (s.setQOut v).bOut = s.bOut := rfl
@[simp] theorem State.setQOut_b0Out (s : State) (v : Word565) : (s.setQOut v).b0Out = s.b0Out := rfl
@[simp] theorem State.setQOut_b1Out (s : State) (v : Word565) : (s.setQOut v).b1Out = s.b1Out := rfl
@[simp] theorem State.setQOut_wOut (s : State) (v : Word565) : (s.setQOut v).wOut = s.wOut := rfl
@[simp] theorem State.setQOut_src (s : State) (v : Word565) : (s.setQOut v).src = s.src := rfl
@[simp] theorem State.setQOut_stream (s : State) (v : Word565) : (s.setQOut v).stream = s.stream := rfl
@[simp] theorem State.setQOut_dst (s : State) (v : Word565) : (s.setQOut v).dst = s.dst := rfl
@[simp] theorem State.setQOut_fault (s : State) (v : Word565) : (s.setQOut v).fault = s.fault := rfl
@[simp] theorem State.setQOut_refused (s : State) (v : Word565) : (s.setQOut v).refused = s.refused := rfl

@[simp] theorem State.setRgbOut_config (s : State) (p : Pixel) : (s.setRgbOut p).config = s.config := rfl
@[simp] theorem State.setRgbOut_inputs (s : State) (p : Pixel) : (s.setRgbOut p).inputs = s.inputs := rfl
@[simp] theorem State.setRgbOut_cfgW (s : State) (p : Pixel) : (s.setRgbOut p).cfgW = s.cfgW := rfl
@[simp] theorem State.setRgbOut_cfgH (s : State) (p : Pixel) : (s.setRgbOut p).cfgH = s.cfgH := rfl
@[simp] theorem State.setRgbOut_qOut (s : State) (p : Pixel) : (s.setRgbOut p).qOut = s.qOut := rfl
@[simp] theorem State.setRgbOut_rOut (s : State) (p : Pixel) : (s.setRgbOut p).rOut = some p.r := rfl
@[simp] theorem State.setRgbOut_gOut (s : State) (p : Pixel) : (s.setRgbOut p).gOut = some p.g := rfl
@[simp] theorem State.setRgbOut_bOut (s : State) (p : Pixel) : (s.setRgbOut p).bOut = some p.b := rfl
@[simp] theorem State.setRgbOut_b0Out (s : State) (p : Pixel) : (s.setRgbOut p).b0Out = s.b0Out := rfl
@[simp] theorem State.setRgbOut_b1Out (s : State) (p : Pixel) : (s.setRgbOut p).b1Out = s.b1Out := rfl
@[simp] theorem State.setRgbOut_wOut (s : State) (p : Pixel) : (s.setRgbOut p).wOut = s.wOut := rfl
@[simp] theorem State.setRgbOut_src (s : State) (p : Pixel) : (s.setRgbOut p).src = s.src := rfl
@[simp] theorem State.setRgbOut_stream (s : State) (p : Pixel) : (s.setRgbOut p).stream = s.stream := rfl
@[simp] theorem State.setRgbOut_dst (s : State) (p : Pixel) : (s.setRgbOut p).dst = s.dst := rfl
@[simp] theorem State.setRgbOut_fault (s : State) (p : Pixel) : (s.setRgbOut p).fault = s.fault := rfl
@[simp] theorem State.setRgbOut_refused (s : State) (p : Pixel) : (s.setRgbOut p).refused = s.refused := rfl

@[simp] theorem State.setBytesOut_config (s : State) (b0 b1 : Byte) : (s.setBytesOut b0 b1).config = s.config := rfl
@[simp] theorem State.setBytesOut_inputs (s : State) (b0 b1 : Byte) : (s.setBytesOut b0 b1).inputs = s.inputs := rfl
@[simp] theorem State.setBytesOut_cfgW (s : State) (b0 b1 : Byte) : (s.setBytesOut b0 b1).cfgW = s.cfgW := rfl
@[simp] theorem State.setBytesOut_cfgH (s : State) (b0 b1 : Byte) : (s.setBytesOut b0 b1).cfgH = s.cfgH := rfl
@[simp] theorem State.setBytesOut_qOut (s : State) (b0 b1 : Byte) : (s.setBytesOut b0 b1).qOut = s.qOut := rfl
@[simp] theorem State.setBytesOut_rOut (s : State) (b0 b1 : Byte) : (s.setBytesOut b0 b1).rOut = s.rOut := rfl
@[simp] theorem State.setBytesOut_gOut (s : State) (b0 b1 : Byte) : (s.setBytesOut b0 b1).gOut = s.gOut := rfl
@[simp] theorem State.setBytesOut_bOut (s : State) (b0 b1 : Byte) : (s.setBytesOut b0 b1).bOut = s.bOut := rfl
@[simp] theorem State.setBytesOut_b0Out (s : State) (b0 b1 : Byte) : (s.setBytesOut b0 b1).b0Out = some b0 := rfl
@[simp] theorem State.setBytesOut_b1Out (s : State) (b0 b1 : Byte) : (s.setBytesOut b0 b1).b1Out = some b1 := rfl
@[simp] theorem State.setBytesOut_wOut (s : State) (b0 b1 : Byte) : (s.setBytesOut b0 b1).wOut = s.wOut := rfl
@[simp] theorem State.setBytesOut_src (s : State) (b0 b1 : Byte) : (s.setBytesOut b0 b1).src = s.src := rfl
@[simp] theorem State.setBytesOut_stream (s : State) (b0 b1 : Byte) : (s.setBytesOut b0 b1).stream = s.stream := rfl
@[simp] theorem State.setBytesOut_dst (s : State) (b0 b1 : Byte) : (s.setBytesOut b0 b1).dst = s.dst := rfl
@[simp] theorem State.setBytesOut_fault (s : State) (b0 b1 : Byte) : (s.setBytesOut b0 b1).fault = s.fault := rfl
@[simp] theorem State.setBytesOut_refused (s : State) (b0 b1 : Byte) : (s.setBytesOut b0 b1).refused = s.refused := rfl

@[simp] theorem State.setWOut_config (s : State) (v : Word565) : (s.setWOut v).config = s.config := rfl
@[simp] theorem State.setWOut_inputs (s : State) (v : Word565) : (s.setWOut v).inputs = s.inputs := rfl
@[simp] theorem State.setWOut_cfgW (s : State) (v : Word565) : (s.setWOut v).cfgW = s.cfgW := rfl
@[simp] theorem State.setWOut_cfgH (s : State) (v : Word565) : (s.setWOut v).cfgH = s.cfgH := rfl
@[simp] theorem State.setWOut_qOut (s : State) (v : Word565) : (s.setWOut v).qOut = s.qOut := rfl
@[simp] theorem State.setWOut_rOut (s : State) (v : Word565) : (s.setWOut v).rOut = s.rOut := rfl
@[simp] theorem State.setWOut_gOut (s : State) (v : Word565) : (s.setWOut v).gOut = s.gOut := rfl
@[simp] theorem State.setWOut_bOut (s : State) (v : Word565) : (s.setWOut v).bOut = s.bOut := rfl
@[simp] theorem State.setWOut_b0Out (s : State) (v : Word565) : (s.setWOut v).b0Out = s.b0Out := rfl
@[simp] theorem State.setWOut_b1Out (s : State) (v : Word565) : (s.setWOut v).b1Out = s.b1Out := rfl
@[simp] theorem State.setWOut_wOut (s : State) (v : Word565) : (s.setWOut v).wOut = some v := rfl
@[simp] theorem State.setWOut_src (s : State) (v : Word565) : (s.setWOut v).src = s.src := rfl
@[simp] theorem State.setWOut_stream (s : State) (v : Word565) : (s.setWOut v).stream = s.stream := rfl
@[simp] theorem State.setWOut_dst (s : State) (v : Word565) : (s.setWOut v).dst = s.dst := rfl
@[simp] theorem State.setWOut_fault (s : State) (v : Word565) : (s.setWOut v).fault = s.fault := rfl
@[simp] theorem State.setWOut_refused (s : State) (v : Word565) : (s.setWOut v).refused = s.refused := rfl

@[simp] theorem State.setSrc_config (s : State) (g : Option Grid) : (s.setSrc g).config = s.config := rfl
@[simp] theorem State.setSrc_inputs (s : State) (g : Option Grid) : (s.setSrc g).inputs = s.inputs := rfl
@[simp] theorem State.setSrc_cfgW (s : State) (g : Option Grid) : (s.setSrc g).cfgW = s.cfgW := rfl
@[simp] theorem State.setSrc_cfgH (s : State) (g : Option Grid) : (s.setSrc g).cfgH = s.cfgH := rfl
@[simp] theorem State.setSrc_qOut (s : State) (g : Option Grid) : (s.setSrc g).qOut = s.qOut := rfl
@[simp] theorem State.setSrc_rOut (s : State) (g : Option Grid) : (s.setSrc g).rOut = s.rOut := rfl
@[simp] theorem State.setSrc_gOut (s : State) (g : Option Grid) : (s.setSrc g).gOut = s.gOut := rfl
@[simp] theorem State.setSrc_bOut (s : State) (g : Option Grid) : (s.setSrc g).bOut = s.bOut := rfl
@[simp] theorem State.setSrc_b0Out (s : State) (g : Option Grid) : (s.setSrc g).b0Out = s.b0Out := rfl
@[simp] theorem State.setSrc_b1Out (s : State) (g : Option Grid) : (s.setSrc g).b1Out = s.b1Out := rfl
@[simp] theorem State.setSrc_wOut (s : State) (g : Option Grid) : (s.setSrc g).wOut = s.wOut := rfl
@[simp] theorem State.setSrc_src (s : State) (g : Option Grid) : (s.setSrc g).src = g := rfl
@[simp] theorem State.setSrc_stream (s : State) (g : Option Grid) : (s.setSrc g).stream = s.stream := rfl
@[simp] theorem State.setSrc_dst (s : State) (g : Option Grid) : (s.setSrc g).dst = s.dst := rfl
@[simp] theorem State.setSrc_fault (s : State) (g : Option Grid) : (s.setSrc g).fault = s.fault := rfl
@[simp] theorem State.setSrc_refused (s : State) (g : Option Grid) : (s.setSrc g).refused = s.refused := rfl

@[simp] theorem State.setStream_config (s : State) (m : Option Memory) : (s.setStream m).config = s.config := rfl
@[simp] theorem State.setStream_inputs (s : State) (m : Option Memory) : (s.setStream m).inputs = s.inputs := rfl
@[simp] theorem State.setStream_cfgW (s : State) (m : Option Memory) : (s.setStream m).cfgW = s.cfgW := rfl
@[simp] theorem State.setStream_cfgH (s : State) (m : Option Memory) : (s.setStream m).cfgH = s.cfgH := rfl
@[simp] theorem State.setStream_qOut (s : State) (m : Option Memory) : (s.setStream m).qOut = s.qOut := rfl
@[simp] theorem State.setStream_rOut (s : State) (m : Option Memory) : (s.setStream m).rOut = s.rOut := rfl
@[simp] theorem State.setStream_gOut (s : State) (m : Option Memory) : (s.setStream m).gOut = s.gOut := rfl
@[simp] theorem State.setStream_bOut (s : State) (m : Option Memory) : (s.setStream m).bOut = s.bOut := rfl
@[simp] theorem State.setStream_b0Out (s : State) (m : Option Memory) : (s.setStream m).b0Out = s.b0Out := rfl
@[simp] theorem State.setStream_b1Out (s : State) (m : Option Memory) : (s.setStream m).b1Out = s.b1Out := rfl
@[simp] theorem State.setStream_wOut (s : State) (m : Option Memory) : (s.setStream m).wOut = s.wOut := rfl
@[simp] theorem State.setStream_src (s : State) (m : Option Memory) : (s.setStream m).src = s.src := rfl
@[simp] theorem State.setStream_stream (s : State) (m : Option Memory) : (s.setStream m).stream = m := rfl
@[simp] theorem State.setStream_dst (s : State) (m : Option Memory) : (s.setStream m).dst = s.dst := rfl
@[simp] theorem State.setStream_fault (s : State) (m : Option Memory) : (s.setStream m).fault = s.fault := rfl
@[simp] theorem State.setStream_refused (s : State) (m : Option Memory) : (s.setStream m).refused = s.refused := rfl

@[simp] theorem State.setDst_config (s : State) (g : Option Grid) : (s.setDst g).config = s.config := rfl
@[simp] theorem State.setDst_inputs (s : State) (g : Option Grid) : (s.setDst g).inputs = s.inputs := rfl
@[simp] theorem State.setDst_cfgW (s : State) (g : Option Grid) : (s.setDst g).cfgW = s.cfgW := rfl
@[simp] theorem State.setDst_cfgH (s : State) (g : Option Grid) : (s.setDst g).cfgH = s.cfgH := rfl
@[simp] theorem State.setDst_qOut (s : State) (g : Option Grid) : (s.setDst g).qOut = s.qOut := rfl
@[simp] theorem State.setDst_rOut (s : State) (g : Option Grid) : (s.setDst g).rOut = s.rOut := rfl
@[simp] theorem State.setDst_gOut (s : State) (g : Option Grid) : (s.setDst g).gOut = s.gOut := rfl
@[simp] theorem State.setDst_bOut (s : State) (g : Option Grid) : (s.setDst g).bOut = s.bOut := rfl
@[simp] theorem State.setDst_b0Out (s : State) (g : Option Grid) : (s.setDst g).b0Out = s.b0Out := rfl
@[simp] theorem State.setDst_b1Out (s : State) (g : Option Grid) : (s.setDst g).b1Out = s.b1Out := rfl
@[simp] theorem State.setDst_wOut (s : State) (g : Option Grid) : (s.setDst g).wOut = s.wOut := rfl
@[simp] theorem State.setDst_src (s : State) (g : Option Grid) : (s.setDst g).src = s.src := rfl
@[simp] theorem State.setDst_stream (s : State) (g : Option Grid) : (s.setDst g).stream = s.stream := rfl
@[simp] theorem State.setDst_dst (s : State) (g : Option Grid) : (s.setDst g).dst = g := rfl
@[simp] theorem State.setDst_fault (s : State) (g : Option Grid) : (s.setDst g).fault = s.fault := rfl
@[simp] theorem State.setDst_refused (s : State) (g : Option Grid) : (s.setDst g).refused = s.refused := rfl

@[simp] theorem State.setFault_config (s : State) (r : FaultRecord) : (s.setFault r).config = s.config := rfl
@[simp] theorem State.setFault_inputs (s : State) (r : FaultRecord) : (s.setFault r).inputs = s.inputs := rfl
@[simp] theorem State.setFault_cfgW (s : State) (r : FaultRecord) : (s.setFault r).cfgW = s.cfgW := rfl
@[simp] theorem State.setFault_cfgH (s : State) (r : FaultRecord) : (s.setFault r).cfgH = s.cfgH := rfl
@[simp] theorem State.setFault_qOut (s : State) (r : FaultRecord) : (s.setFault r).qOut = s.qOut := rfl
@[simp] theorem State.setFault_rOut (s : State) (r : FaultRecord) : (s.setFault r).rOut = s.rOut := rfl
@[simp] theorem State.setFault_gOut (s : State) (r : FaultRecord) : (s.setFault r).gOut = s.gOut := rfl
@[simp] theorem State.setFault_bOut (s : State) (r : FaultRecord) : (s.setFault r).bOut = s.bOut := rfl
@[simp] theorem State.setFault_b0Out (s : State) (r : FaultRecord) : (s.setFault r).b0Out = s.b0Out := rfl
@[simp] theorem State.setFault_b1Out (s : State) (r : FaultRecord) : (s.setFault r).b1Out = s.b1Out := rfl
@[simp] theorem State.setFault_wOut (s : State) (r : FaultRecord) : (s.setFault r).wOut = s.wOut := rfl
@[simp] theorem State.setFault_src (s : State) (r : FaultRecord) : (s.setFault r).src = s.src := rfl
@[simp] theorem State.setFault_stream (s : State) (r : FaultRecord) : (s.setFault r).stream = s.stream := rfl
@[simp] theorem State.setFault_dst (s : State) (r : FaultRecord) : (s.setFault r).dst = s.dst := rfl
@[simp] theorem State.setFault_fault (s : State) (r : FaultRecord) : (s.setFault r).fault = some r := rfl
@[simp] theorem State.setFault_refused (s : State) (r : FaultRecord) : (s.setFault r).refused = s.refused := rfl

@[simp] theorem State.setRefused_config (s : State) : s.setRefused.config = s.config := rfl
@[simp] theorem State.setRefused_inputs (s : State) : s.setRefused.inputs = s.inputs := rfl
@[simp] theorem State.setRefused_cfgW (s : State) : s.setRefused.cfgW = s.cfgW := rfl
@[simp] theorem State.setRefused_cfgH (s : State) : s.setRefused.cfgH = s.cfgH := rfl
@[simp] theorem State.setRefused_qOut (s : State) : s.setRefused.qOut = s.qOut := rfl
@[simp] theorem State.setRefused_rOut (s : State) : s.setRefused.rOut = s.rOut := rfl
@[simp] theorem State.setRefused_gOut (s : State) : s.setRefused.gOut = s.gOut := rfl
@[simp] theorem State.setRefused_bOut (s : State) : s.setRefused.bOut = s.bOut := rfl
@[simp] theorem State.setRefused_b0Out (s : State) : s.setRefused.b0Out = s.b0Out := rfl
@[simp] theorem State.setRefused_b1Out (s : State) : s.setRefused.b1Out = s.b1Out := rfl
@[simp] theorem State.setRefused_wOut (s : State) : s.setRefused.wOut = s.wOut := rfl
@[simp] theorem State.setRefused_src (s : State) : s.setRefused.src = s.src := rfl
@[simp] theorem State.setRefused_stream (s : State) : s.setRefused.stream = s.stream := rfl
@[simp] theorem State.setRefused_dst (s : State) : s.setRefused.dst = s.dst := rfl
@[simp] theorem State.setRefused_fault (s : State) : s.setRefused.fault = s.fault := rfl
@[simp] theorem State.setRefused_refused (s : State) : s.setRefused.refused = true := rfl

end Sys2Proof.Machine
end

