-- ==== Sys2Proof/Laws/Ops.lean ====
section
/-! SUPPORT. What the shared operations can do, said once: the byte stream, grids and frames, the end of a run, taking a
fault, the checks of a frame operation. -/

namespace Sys2Proof.Machine

/-! ## The byte stream -/

theorem Memory.cellsFrom_length (a : Nat) (bs : List Byte) : (Memory.cellsFrom a bs).length = bs.length := by
  induction bs generalizing a with
  | nil => rfl
  | cons b bs ih => simp [Memory.cellsFrom, ih]

theorem Memory.cellsFrom_offsets (a : Nat) (bs : List Byte) :
    (Memory.cellsFrom a bs).map Prod.fst = List.range' a bs.length := by
  induction bs generalizing a with
  | nil => rfl
  | cons b bs ih => simp [Memory.cellsFrom, ih, List.range'_succ]

theorem Memory.cellsFrom_bytes (a : Nat) (bs : List Byte) : (Memory.cellsFrom a bs).map Prod.snd = bs := by
  induction bs generalizing a with
  | nil => rfl
  | cons b bs ih => simp [Memory.cellsFrom, ih]

theorem Memory.read_cellsFrom (a : Nat) (bs : List Byte) (k : Nat) :
    Memory.read (Memory.cellsFrom a bs) (a + k) = bs[k]? := by
  induction bs generalizing a k with
  | nil => rfl
  | cons b bs ih =>
    cases k with
    | zero => simp [Memory.cellsFrom, Memory.read]
    | succ k =>
      have h : a + (k + 1) = (a + 1) + k := by omega
      simp [Memory.cellsFrom, Memory.read, h, ih]
      omega

@[simp] theorem Memory.ofBytes_length (bs : List Byte) : (Memory.ofBytes bs).length = bs.length :=
  Memory.cellsFrom_length 0 bs

/-- Every offset below the length reads its byte; no other offset has a value. -/
@[simp] theorem Memory.read_ofBytes (bs : List Byte) (a : Nat) : Memory.read (Memory.ofBytes bs) a = bs[a]? := by
  simpa [Memory.ofBytes] using Memory.read_cellsFrom 0 bs a

/-- The one operation that makes a stream gives it its canonical form. -/
theorem Memory.wf_ofBytes (bs : List Byte) : Memory.wf (Memory.ofBytes bs) = true := by
  simp [Memory.wf, Memory.ofBytes, Memory.cellsFrom_offsets, Memory.cellsFrom_length, List.range_eq_range']

theorem Memory.eq_cellsFrom_of_offsets (a : Nat) (m : Memory) (h : m.map Prod.fst = List.range' a m.length) :
    m = Memory.cellsFrom a (m.map Prod.snd) := by
  induction m generalizing a with
  | nil => rfl
  | cons c m ih =>
    obtain ⟨k, b⟩ := c
    simp only [List.map_cons, List.length_cons, List.range'_succ, List.cons.injEq] at h
    simp only [List.map_cons, Memory.cellsFrom, List.cons.injEq]
    exact ⟨by rw [h.1], ih (a + 1) h.2⟩

/-- A stream in canonical form is the stream of its bytes, so that equal byte sequences are equal streams. -/
theorem Memory.eq_ofBytes_of_wf {m : Memory} (h : Memory.wf m = true) : m = Memory.ofBytes (m.map Prod.snd) := by
  refine Memory.eq_cellsFrom_of_offsets 0 m ?_
  simpa [Memory.wf, List.range_eq_range'] using h

/-- In canonical form, every offset below the length has a byte. -/
theorem Memory.read_of_wf {m : Memory} (h : Memory.wf m = true) {a : Nat} (ha : a < m.length) :
    ∃ b, Memory.read m a = some b := by
  rw [Memory.eq_ofBytes_of_wf h, Memory.read_ofBytes]
  exact ⟨_, List.getElem?_eq_getElem (by simpa using ha)⟩

/-! ## Lists of values, grids -/

theorem allPresent_eq_some {α : Type} (l : List (Option α)) (as : List α) :
    allPresent l = some as ↔ l = as.map some := by
  induction l generalizing as with
  | nil => cases as <;> simp [allPresent]
  | cons o l ih => cases o <;> cases as <;> simp [allPresent, ih, and_comm]

/-- If every value is there, so is the list of them. -/
theorem allPresent_of_forall {α : Type} (l : List (Option α)) (h : ∀ o ∈ l, o.isSome = true) :
    ∃ as, allPresent l = some as := by
  induction l with
  | nil => exact ⟨[], rfl⟩
  | cons o l ih =>
    obtain ⟨as, has⟩ := ih fun o' ho' => h o' (List.mem_cons_of_mem _ ho')
    obtain ⟨a, rfl⟩ := Option.isSome_iff_exists.mp (h o (List.mem_cons_self ..))
    exact ⟨a :: as, by simp [allPresent, has]⟩

theorem hasShape_iff (w h : Nat) (g : Grid) :
    hasShape w h g = true ↔ g.length = h ∧ ∀ row ∈ g, row.length = w := by simp [hasShape]

theorem rectangular_iff {α : Type} (rows : List (List α)) :
    rectangular rows = true ↔ ∀ row ∈ rows, row.length = gridWidth rows := by simp [rectangular]

/-- A grid is rectangular when any two of its rows have one length (R26). -/
theorem rectangular_iff_rows {α : Type} (rows : List (List α)) :
    rectangular rows = true ↔ ∀ row ∈ rows, ∀ row' ∈ rows, row.length = row'.length := by
  rw [rectangular_iff]
  constructor
  · intro h row hr row' hr'
    rw [h row hr, h row' hr']
  · intro h row hr
    cases rows with
    | nil => cases hr
    | cons r rows => exact h row hr r (List.mem_cons_self ..)

/-- On a rectangular grid, the shape check is `(W_s, H_s) = (W, H)` as R85 writes it. -/
theorem hasShape_of_rectangular {w h : Nat} {g : Grid} (hr : rectangular g = true) (hh : 0 < h) :
    hasShape w h g = true ↔ gridWidth g = w ∧ gridHeight g = h := by
  rw [hasShape_iff]
  rw [rectangular_iff] at hr
  cases g with
  | nil => simp [gridHeight]; omega
  | cons row rows =>
    constructor
    · rintro ⟨hl, hw⟩
      exact ⟨by simpa [gridWidth] using hw row (List.mem_cons_self ..), hl⟩
    · rintro ⟨hw, hl⟩
      exact ⟨hl, fun r hr' => by rw [hr r hr', hw]⟩

/-- A grid of some shape is rectangular. -/
theorem rectangular_of_shape {w : Nat} {g : Grid} (h : ∀ row ∈ g, row.length = w) : rectangular g = true := by
  rw [rectangular_iff]
  intro row hrow
  cases g with
  | nil => simp at hrow
  | cons r g => rw [h row hrow]; exact (h r (List.mem_cons_self ..)).symm

/-- Where a grid has a pixel. -/
theorem pixelAt_of_shape {w h : Nat} {g : Grid} (hs : hasShape w h g = true) {x y : Nat} (hx : x < w) (hy : y < h) :
    ∃ p, pixelAt g x y = some p := by
  obtain ⟨hl, hw⟩ := (hasShape_iff w h g).mp hs
  have hy' : y < g.length := hl ▸ hy
  have hx' : x < g[y].length := (hw _ (List.getElem_mem hy')).symm ▸ hx
  exact ⟨g[y][x], by simp [pixelAt, List.getElem?_eq_getElem hy', List.getElem?_eq_getElem hx']⟩

/-! ## Frames -/

theorem flatMap_length_const {α β : Type} (f : α → List β) (n : Nat) (l : List α) (h : ∀ a ∈ l, (f a).length = n) :
    (l.flatMap f).length = l.length * n := by
  induction l with
  | nil => simp
  | cons a l ih =>
    rw [List.flatMap_cons, List.length_append, h a (List.mem_cons_self ..),
      ih fun a' ha' => h a' (List.mem_cons_of_mem _ ha'), List.length_cons]
    ring

/-- In a concatenation of blocks of one length, entry `y · n + k` is entry `k` of block `y`. -/
theorem flatMap_getElem_const {α β : Type} (f : α → List β) (n : Nat) (l : List α) (h : ∀ a ∈ l, (f a).length = n)
    (y k : Nat) (hk : k < n) : (l.flatMap f)[y * n + k]? = (l[y]?).bind fun a => (f a)[k]? := by
  induction l generalizing y with
  | nil => simp
  | cons a l ih =>
    have ha := h a (List.mem_cons_self ..)
    rw [List.flatMap_cons]
    cases y with
    | zero => simp [List.getElem?_append_left, ha, hk]
    | succ y =>
      have e : (y + 1) * n + k = n + (y * n + k) := by ring
      rw [e, List.getElem?_append_right (by omega), ha, Nat.add_sub_cancel_left,
        ih (fun a' ha' => h a' (List.mem_cons_of_mem _ ha'))]
      simp

theorem rowBytes_length (row : List Pixel) : (row.flatMap pixelBytes).length = row.length * 2 :=
  flatMap_length_const pixelBytes 2 row fun _ _ => rfl

/-- A frame's stream has two bytes for each pixel. -/
theorem gridBytes_length {w h : Nat} {g : Grid} (hs : hasShape w h g = true) :
    (gridBytes g).length = frameBytes w h := by
  obtain ⟨hl, hw⟩ := (hasShape_iff w h g).mp hs
  rw [gridBytes, flatMap_length_const _ (w * 2) g fun row hrow => by rw [rowBytes_length, hw row hrow], hl, frameBytes]
  ring

/-- Byte `k` of pixel `(x, y)` stands at offset `2 · (y · w + x) + k` of the frame's bytes (R43, R48). -/
theorem gridBytes_at {w h : Nat} {g : Grid} (hs : hasShape w h g = true) {x y k : Nat} (hx : x < w) (hk : k < 2) :
    (gridBytes g)[2 * wordIndex w x y + k]? = (pixelAt g x y).bind fun p => (pixelBytes p)[k]? := by
  obtain ⟨-, hw⟩ := (hasShape_iff w h g).mp hs
  have e : 2 * wordIndex w x y + k = y * (w * 2) + (x * 2 + k) := by simp only [wordIndex]; ring
  rw [e, gridBytes, flatMap_getElem_const _ (w * 2) g (fun row hrow => by rw [rowBytes_length, hw row hrow]) y
    (x * 2 + k) (by omega)]
  cases hg : g[y]? with
  | none => simp [pixelAt, hg]
  | some row =>
    simp only [pixelAt, hg, Option.bind_some]
    exact flatMap_getElem_const pixelBytes 2 row (fun _ _ => rfl) x k hk

/-- The word at an index is the join of its two bytes (R44). -/
theorem readWord_eq_some (m : Memory) (i : Nat) (w : Word565) :
    readWord m i = some w ↔
      ∃ b0 b1, Memory.read m (lowOffset i) = some b0 ∧ Memory.read m (highOffset i) = some b1 ∧ joinBytes b0 b1 = w := by
  simp only [readWord, Option.bind_eq_some_iff, Option.map_eq_some_iff]
  constructor
  · rintro ⟨b0, h0, b1, h1, h⟩
    exact ⟨b0, b1, h0, h1, h⟩
  · rintro ⟨b0, b1, h0, h1, h⟩
    exact ⟨b0, h0, b1, h1, h⟩

/-- In canonical form, every word index below half the length has a word. -/
theorem readWord_of_wf {m : Memory} (h : Memory.wf m = true) {i : Nat} (hi : 2 * i + 1 < m.length) :
    ∃ w, readWord m i = some w := by
  obtain ⟨b0, h0⟩ := Memory.read_of_wf h (a := lowOffset i) (by simp only [lowOffset]; omega)
  obtain ⟨b1, h1⟩ := Memory.read_of_wf h (a := highOffset i) hi
  exact ⟨_, (readWord_eq_some m i _).mpr ⟨b0, b1, h0, h1, rfl⟩⟩

theorem decodeRow_eq_some (m : Memory) (w y : Nat) (row : List Pixel) :
    decodeRow m w y = some row ↔
      row.length = w ∧ ∀ x < w, (readWord m (wordIndex w x y)).map reconstruct = row[x]? := by
  rw [decodeRow, allPresent_eq_some]
  constructor
  · intro h
    have hl : row.length = w := by simpa using (congrArg List.length h).symm
    refine ⟨hl, fun x hx => ?_⟩
    have hx' := congrArg (fun l => l[x]?) h
    simp only [List.getElem?_map, List.getElem?_range hx, Option.map_some] at hx'
    rw [List.getElem?_eq_getElem (hl.symm ▸ hx)] at hx' ⊢
    simpa using hx'
  · rintro ⟨hl, h⟩
    apply List.ext_getElem?
    intro x
    by_cases hx : x < w
    · simp only [List.getElem?_map, List.getElem?_range hx, Option.map_some]
      rw [h x hx, List.getElem?_eq_getElem (hl.symm ▸ hx)]
      rfl
    · rw [List.getElem?_eq_none (by simpa using hx), List.getElem?_eq_none (by simpa [hl] using hx)]

/-- What a decoded frame is: `h` rows of `w` pixels, each the reconstruction of its word (R104). -/
theorem decodeFrame_eq_some (m : Memory) (w h : Nat) (g : Grid) :
    decodeFrame m w h = some g ↔
      hasShape w h g = true ∧
      ∀ x < w, ∀ y < h, (readWord m (wordIndex w x y)).map reconstruct = pixelAt g x y := by
  rw [decodeFrame, allPresent_eq_some, hasShape_iff]
  constructor
  · intro hm
    have hl : g.length = h := by simpa using (congrArg List.length hm).symm
    have hrow : ∀ y (hy : y < h), decodeRow m w y = some (g[y]'(hl.symm ▸ hy)) := by
      intro y hy
      have hy' := congrArg (fun l => l[y]?) hm
      simp only [List.getElem?_map, List.getElem?_range hy, Option.map_some] at hy'
      rw [List.getElem?_eq_getElem (hl.symm ▸ hy)] at hy'
      simpa using hy'
    refine ⟨⟨hl, fun row hr => ?_⟩, fun x hx y hy => ?_⟩
    · obtain ⟨y, hy, rfl⟩ := List.getElem_of_mem hr
      exact ((decodeRow_eq_some m w y _).mp (hrow y (hl ▸ hy))).1
    · have hy' : y < g.length := hl.symm ▸ hy
      rw [((decodeRow_eq_some m w y _).mp (hrow y hy)).2 x hx]
      simp [pixelAt, List.getElem?_eq_getElem hy']
  · rintro ⟨⟨hl, hw⟩, h'⟩
    apply List.ext_getElem?
    intro y
    by_cases hy : y < h
    · have hy' : y < g.length := hl.symm ▸ hy
      simp only [List.getElem?_map, List.getElem?_range hy, Option.map_some, List.getElem?_eq_getElem hy']
      congr 1
      refine (decodeRow_eq_some m w y _).mpr ⟨hw _ (List.getElem_mem hy'), fun x hx => ?_⟩
      rw [h' x hx y hy]
      simp [pixelAt, List.getElem?_eq_getElem hy']
    · rw [List.getElem?_eq_none (by simpa using hy), List.getElem?_eq_none (by simpa [hl] using hy)]

/-- A stream in canonical form of the frame's length decodes: no offset is missing. -/
theorem decodeFrame_of_wf {m : Memory} {w h : Nat} (hwf : Memory.wf m = true) (hlen : m.length = frameBytes w h) :
    ∃ g, decodeFrame m w h = some g := by
  refine allPresent_of_forall _ ?_
  simp only [List.mem_map, List.mem_range]
  rintro _ ⟨y, hy, rfl⟩
  obtain ⟨row, hrow⟩ := allPresent_of_forall
    ((List.range w).map fun x => (readWord m (wordIndex w x y)).map reconstruct) (by
      simp only [List.mem_map, List.mem_range]
      rintro _ ⟨x, hx, rfl⟩
      have hb : y * w + x < w * h := by
        calc y * w + x < y * w + w := by omega
          _ = (y + 1) * w := by ring
          _ ≤ h * w := Nat.mul_le_mul_right w hy
          _ = w * h := Nat.mul_comm h w
      obtain ⟨v, hv⟩ := readWord_of_wf hwf (i := wordIndex w x y) (by
        rw [hlen]; simp only [frameBytes, wordIndex]; omega)
      simp [hv])
  simp [decodeRow, hrow]

/-! ## The end of a run, faults, refusals -/

@[simp] theorem State.running_setInputs (s : State) (rest : List HostInput) :
    (s.setInputs rest).Running ↔ s.Running := Iff.rfl

theorem whileRunning_of_running {s : State} (h : s.Running) (k : Host.Outcome State Fault Refusal) :
    whileRunning s k = k := by
  simp [whileRunning, h.1, h.2]

/-- A command's step is that of a run that has not ended. -/
theorem whileRunning_eq_next {s t : State} {k : Host.Outcome State Fault Refusal} :
    whileRunning s k = .next t ↔ s.Running ∧ k = .next t := by
  unfold whileRunning State.Running
  cases hf : s.fault <;> cases hr : s.refused <;> simp

theorem whileRunning_faulted {s : State} {r : FaultRecord} (h : s.fault = some r)
    (k : Host.Outcome State Fault Refusal) : whileRunning s k = .fault .runFaulted := by
  simp [whileRunning, h]

theorem whileRunning_refused {s : State} (hf : s.fault = none) (hr : s.refused = true)
    (k : Host.Outcome State Fault Refusal) : whileRunning s k = .fault .runRefused := by
  simp [whileRunning, hf, hr]

theorem refuseCommand_eq_next {s t : State} : refuseCommand s = .next t ↔ s.Running ∧ s.setRefused = t := by
  simp [refuseCommand, whileRunning_eq_next]

@[simp] theorem raiseFault_fault (u : FrameUnit) (r : FaultRecord) (s : State) : (raiseFault u r s).fault = some r := by
  cases u <;> rfl

/-- An ENCF that faults: FAULT and STREAM, nothing else (R128). -/
theorem raiseFault_encoder (r : FaultRecord) (s : State) :
    raiseFault .encoder r s = { s with fault := some r, stream := none } := rfl

/-- A DECF that faults: FAULT and DST, nothing else (R128). -/
theorem raiseFault_decoder (r : FaultRecord) (s : State) :
    raiseFault .decoder r s = { s with fault := some r, dst := none } := rfl

/-- Everything the checks of a frame operation can do, in a next state: the dimension fault, or what follows the checks. -/
theorem frameChecks_eq_next {u : FrameUnit} {s t : State} {k : Host.Outcome State Fault Refusal} :
    frameChecks u s k = .next t ↔
      ((s.cfgW = 0 ∨ s.cfgH = 0) ∧ raiseFault u (.invalidDimension s.cfgW s.cfgH) s = t) ∨
      (0 < s.cfgW ∧ 0 < s.cfgH ∧ frameAllowed s.config s.cfgW s.cfgH = true ∧ k = .next t) := by
  unfold frameChecks
  split
  · rename_i h
    simp only [h, true_and, Host.Outcome.next.injEq]
    constructor
    · exact Or.inl
    · rintro (h' | ⟨hw, hh, -, -⟩)
      · exact h'
      · omega
  · rename_i h
    have hw : 0 < s.cfgW := by omega
    have hh : 0 < s.cfgH := by omega
    cases hb : frameAllowed s.config s.cfgW s.cfgH <;> simp [h, hw, hh]

theorem frameChecks_pass {u : FrameUnit} {s : State} (hw : 0 < s.cfgW) (hh : 0 < s.cfgH)
    (ha : frameAllowed s.config s.cfgW s.cfgH = true) (k : Host.Outcome State Fault Refusal) :
    frameChecks u s k = k := by
  have h : ¬ (s.cfgW = 0 ∨ s.cfgH = 0) := by omega
  simp [frameChecks, h, ha]

/-! ## What each operation can do -/

theorem execQ565_eq_next {r g b : Byte} {s t : State} :
    execQ565 r g b s = .next t ↔ s.Running ∧ s.setQOut (quantize { r := r, g := g, b := b }) = t := by
  simp [execQ565, whileRunning_eq_next]

theorem execD565_eq_next {w : Word565} {s t : State} :
    execD565 w s = .next t ↔ s.Running ∧ s.setRgbOut (reconstruct w) = t := by
  simp [execD565, whileRunning_eq_next]

theorem execPk16_eq_next {w : Word565} {s t : State} :
    execPk16 w s = .next t ↔ s.Running ∧ s.setBytesOut (lowByte w) (highByte w) = t := by
  simp [execPk16, whileRunning_eq_next]

theorem execUpk16_eq_next {b0 b1 : Byte} {s t : State} :
    execUpk16 b0 b1 s = .next t ↔ s.Running ∧ s.setWOut (joinBytes b0 b1) = t := by
  simp [execUpk16, whileRunning_eq_next]

/-- Everything ENCF can do in a next state: one of its three faults, or the encoded frame. -/
theorem execEncf_cases {s t : State} (h : execEncf s = .next t) :
    s.Running ∧
    ((s.src = none ∧ t = raiseFault .encoder .decodeError s) ∨
     ∃ g, s.src = some g ∧
      (((s.cfgW = 0 ∨ s.cfgH = 0) ∧ t = raiseFault .encoder (.invalidDimension s.cfgW s.cfgH) s) ∨
       (0 < s.cfgW ∧ 0 < s.cfgH ∧ frameAllowed s.config s.cfgW s.cfgH = true ∧
        ((hasShape s.cfgW s.cfgH g = true ∧ t = s.setStream (some (encodeFrame g))) ∨
         (hasShape s.cfgW s.cfgH g = false ∧
          t = raiseFault .encoder (.gridMismatch (gridWidth g) (gridHeight g) s.cfgW s.cfgH) s))))) := by
  rw [execEncf, whileRunning_eq_next] at h
  obtain ⟨hr, h⟩ := h
  refine ⟨hr, ?_⟩
  cases hs : s.src with
  | none => simp only [hs, Host.Outcome.next.injEq] at h; exact .inl ⟨rfl, h.symm⟩
  | some g =>
    simp only [hs] at h
    refine .inr ⟨g, rfl, ?_⟩
    rcases frameChecks_eq_next.mp h with ⟨hd, rfl⟩ | ⟨hw, hh, ha, h⟩
    · exact .inl ⟨hd, rfl⟩
    · refine .inr ⟨hw, hh, ha, ?_⟩
      cases hg : hasShape s.cfgW s.cfgH g <;> simp [hg] at h
      · exact .inr ⟨rfl, h.symm⟩
      · exact .inl ⟨rfl, h.symm⟩

/-- Everything DECF can do in a next state: one of its three faults, or the decoded frame. -/
theorem execDecf_cases {s t : State} (h : execDecf s = .next t) :
    s.Running ∧
    ((s.stream = none ∧ t = raiseFault .decoder .ioError s) ∨
     ∃ m, s.stream = some m ∧
      (((s.cfgW = 0 ∨ s.cfgH = 0) ∧ t = raiseFault .decoder (.invalidDimension s.cfgW s.cfgH) s) ∨
       (0 < s.cfgW ∧ 0 < s.cfgH ∧ frameAllowed s.config s.cfgW s.cfgH = true ∧
        ((m.length = frameBytes s.cfgW s.cfgH ∧
          ∃ g, decodeFrame m s.cfgW s.cfgH = some g ∧ t = s.setDst (some g)) ∨
         (m.length ≠ frameBytes s.cfgW s.cfgH ∧
          t = raiseFault .decoder (.sizeMismatch m.length (frameBytes s.cfgW s.cfgH)) s))))) := by
  rw [execDecf, whileRunning_eq_next] at h
  obtain ⟨hr, h⟩ := h
  refine ⟨hr, ?_⟩
  cases hs : s.stream with
  | none => simp only [hs, Host.Outcome.next.injEq] at h; exact .inl ⟨rfl, h.symm⟩
  | some m =>
    simp only [hs] at h
    refine .inr ⟨m, rfl, ?_⟩
    rcases frameChecks_eq_next.mp h with ⟨hd, rfl⟩ | ⟨hw, hh, ha, h⟩
    · exact .inl ⟨hd, rfl⟩
    · refine .inr ⟨hw, hh, ha, ?_⟩
      by_cases hl : m.length = frameBytes s.cfgW s.cfgH
      · rw [if_pos hl] at h
        refine .inl ⟨hl, ?_⟩
        cases hg : decodeFrame m s.cfgW s.cfgH with
        | none => simp [hg] at h
        | some g => simp only [hg, Host.Outcome.next.injEq] at h; exact ⟨g, rfl, h.symm⟩
      · rw [if_neg hl] at h
        exact .inr ⟨hl, by simpa using h.symm⟩

/-- ENCF on a source of the frame's shape. -/
theorem execEncf_success {s : State} {g : Grid} (hr : s.Running) (hs : s.src = some g) (hw : 0 < s.cfgW)
    (hh : 0 < s.cfgH) (ha : frameAllowed s.config s.cfgW s.cfgH = true) (hg : hasShape s.cfgW s.cfgH g = true) :
    execEncf s = .next (s.setStream (some (encodeFrame g))) := by
  simp [execEncf, whileRunning_of_running hr, hs, frameChecks_pass hw hh ha, hg]

/-- DECF on a stream of the frame's length whose every word is there. -/
theorem execDecf_success {s : State} {m : Memory} {g : Grid} (hr : s.Running) (hs : s.stream = some m)
    (hw : 0 < s.cfgW) (hh : 0 < s.cfgH) (ha : frameAllowed s.config s.cfgW s.cfgH = true)
    (hl : m.length = frameBytes s.cfgW s.cfgH) (hg : decodeFrame m s.cfgW s.cfgH = some g) :
    execDecf s = .next (s.setDst (some g)) := by
  simp [execDecf, whileRunning_of_running hr, hs, frameChecks_pass hw hh ha, hl, hg]

/-! ## What a step can do -/

/-- Everything a step can do: one of the six operations, the refusal of a command word, or a host action, on the state
whose plan has lost its first action. -/
theorem step_cases {s t : State} (h : step s = .next t) :
    ∃ a rest, s.inputs = a :: rest ∧
      ((∃ c, a = .command c ∧
          ((∃ i, decode c = some i ∧ exec i (s.setInputs rest) = .next t) ∨
           (decode c = none ∧ s.Running ∧ t = (s.setInputs rest).setRefused))) ∨
       (a = .reset ∧ t = { State.reset with config := s.config, inputs := rest }) ∨
       (∃ w hgt, a = .cfg w hgt ∧ dimensionFits s.config w = true ∧ dimensionFits s.config hgt = true ∧
          t = (s.setInputs rest).setCfg w hgt) ∨
       (∃ g, a = .src g ∧ (∀ rows, g = some rows → rectangular rows = true) ∧ t = (s.setInputs rest).setSrc g) ∨
       (∃ bs, a = .stream bs ∧ t = (s.setInputs rest).setStream (bs.map Memory.ofBytes))) := by
  unfold step performNext at h
  cases hi : s.inputs with
  | nil => simp [hi] at h
  | cons a rest =>
    simp only [hi] at h
    refine ⟨a, rest, rfl, ?_⟩
    cases a with
    | command c =>
      refine .inl ⟨c, rfl, ?_⟩
      simp only [performInput, performCommand] at h
      cases hd : decode c with
      | none =>
        simp only [hd] at h
        obtain ⟨hr, rfl⟩ := refuseCommand_eq_next.mp h
        exact .inr ⟨rfl, hr, rfl⟩
      | some i => simp only [hd] at h; exact .inl ⟨i, rfl, h⟩
    | reset =>
      simp only [performInput, hostReset, Host.Outcome.next.injEq] at h
      exact .inr (.inl ⟨rfl, h.symm⟩)
    | cfg w hgt =>
      simp only [performInput, hostSetCfg] at h
      split at h
      · rename_i hf
        simp only [State.setInputs_config, Bool.and_eq_true] at hf
        simp only [Host.Outcome.next.injEq] at h
        exact .inr (.inr (.inl ⟨w, hgt, rfl, hf.1, hf.2, h.symm⟩))
      · cases h
    | src g =>
      refine .inr (.inr (.inr (.inl ⟨g, rfl, ?_⟩)))
      cases g with
      | none =>
        simp only [performInput, hostSetSrc, Host.Outcome.next.injEq] at h
        exact ⟨fun rows hrows => by simp at hrows, h.symm⟩
      | some rows =>
        simp only [performInput, hostSetSrc] at h
        split at h
        · rename_i hr
          simp only [Host.Outcome.next.injEq] at h
          exact ⟨fun rows' hrows => by simp only [Option.some.injEq] at hrows; exact hrows ▸ hr, h.symm⟩
        · cases h
    | stream bs =>
      simp only [performInput, hostSetStream, Host.Outcome.next.injEq] at h
      exact .inr (.inr (.inr (.inr ⟨bs, rfl, h.symm⟩)))

end Sys2Proof.Machine
end

