-- ==== Sys2Proof/Laws/Host.lean ====
section
/-! SUPPORT. What the host sees and writes, said once: its reads, when an assembled line is refused, and how a run stands. -/

namespace Sys2Proof.Machine

/-! ## Reads -/

/-- A stream in canonical form reads as its bytes in offset order. -/
theorem hostView_stream_of_wf {s : State} {m : Memory} (hs : s.stream = some m) (h : Memory.wf m = true) :
    ∃ bs, (hostView s).stream = some bs ∧ bs.length = m.length ∧ ∀ a, bs[a]? = Memory.read m a := by
  refine ⟨m.map Prod.snd, by simp [hostView, hs], by simp, fun a => ?_⟩
  conv_rhs => rw [Memory.eq_ofBytes_of_wf h]
  rw [Memory.read_ofBytes]

/-- The bytes the host reads back are the bytes a stream was made of. -/
theorem hostView_setStream_ofBytes (s : State) (bs : List Byte) :
    (hostView (s.setStream (some (Memory.ofBytes bs)))).stream = some bs := by
  simp [hostView, Memory.ofBytes, Memory.cellsFrom_bytes]

/-! ## Source lines -/

theorem wellFormed_word (n : Nat) : (SourceLine.word n).wellFormed = true ↔ n < 4294967296 := by
  simp [SourceLine.wellFormed, fitsCommand]

theorem wellFormed_src (g : List (List (Nat × Nat × Nat))) :
    (SourceLine.src (some g)).wellFormed = true ↔
      (∀ row ∈ g, ∀ row' ∈ g, row.length = row'.length) ∧
        ∀ row ∈ g, ∀ p ∈ row, p.1 < 256 ∧ p.2.1 < 256 ∧ p.2.2 < 256 := by
  rw [← rectangular_iff_rows]
  simp only [SourceLine.wellFormed, Bool.and_eq_true, List.all_eq_true, fitsByte, decide_eq_true_eq, and_assoc]

theorem wellFormed_stream (l : List Nat) : (SourceLine.stream (some l)).wellFormed = true ↔ ∀ n ∈ l, n < 256 := by
  simp [SourceLine.wellFormed, fitsByte]

/-- A line assembles exactly when it is well-formed, and then to its own action. -/
theorem assembleLine_eq_some {l : SourceLine} {a : HostInput} :
    assembleLine l = some a ↔ l.wellFormed = true ∧ lineAction l = a := by
  unfold assembleLine
  split <;> simp [*]

theorem assembleLine_eq_none {l : SourceLine} : assembleLine l = none ↔ ¬ l.wellFormed = true := by
  unfold assembleLine
  split <;> simp [*]

/-- Bytes made of numbers that fit are those numbers. -/
theorem map_toNat_ofNat {l : List Nat} (h : ∀ n ∈ l, n < 256) :
    (l.map (BitVec.ofNat 8)).map BitVec.toNat = l := by
  rw [List.map_map]
  conv_rhs => rw [← List.map_id l]
  refine List.map_congr_left fun n hn => ?_
  simp [Nat.mod_eq_of_lt (h n hn)]

/-- A grid made of components that fit has those components. -/
theorem sourceGrid_components {g : List (List (Nat × Nat × Nat))}
    (h : ∀ row ∈ g, ∀ p ∈ row, p.1 < 256 ∧ p.2.1 < 256 ∧ p.2.2 < 256) :
    (sourceGrid g).map (fun row => row.map fun p => (p.r.toNat, p.g.toNat, p.b.toNat)) = g := by
  rw [sourceGrid, List.map_map]
  conv_rhs => rw [← List.map_id g]
  refine List.map_congr_left fun row hrow => ?_
  simp only [Function.comp, List.map_map, id]
  conv_rhs => rw [← List.map_id row]
  refine List.map_congr_left fun p hp => ?_
  obtain ⟨a, b, c⟩ := h row hrow p hp
  simp only [Function.comp, BitVec.toNat_ofNat, id]
  rw [Nat.mod_eq_of_lt a, Nat.mod_eq_of_lt b, Nat.mod_eq_of_lt c]

/-! ## How a run stands -/

/-- This run has a command to come exactly when the plan has one with no reset before it. -/
theorem any_isCommand_actionsOfThisRun (plan : List HostInput) :
    (actionsOfThisRun plan).any HostInput.isCommand = true ↔
      ∃ before c rest, plan = before ++ .command c :: rest ∧ HostInput.reset ∉ before := by
  induction plan with
  | nil => simp [actionsOfThisRun]
  | cons a l ih =>
    by_cases hr : a = .reset
    · subst hr
      simp only [actionsOfThisRun, ne_eq, not_true_eq_false, decide_false, Bool.false_eq_true, not_false_eq_true,
        List.takeWhile_cons_of_neg, List.any_nil, false_iff]
      rintro ⟨b, c, r, hl, hb⟩
      cases b with
      | nil => cases hl
      | cons x b => simp at hl hb; exact hb.1 hl.1
    · have hcons : actionsOfThisRun (a :: l) = a :: actionsOfThisRun l := by simp [actionsOfThisRun, hr]
      rw [hcons, List.any_cons, Bool.or_eq_true, ih]
      constructor
      · rintro (h | ⟨b, c, r, rfl, hb⟩)
        · cases a <;> simp [HostInput.isCommand] at h
          exact ⟨[], _, l, rfl, by simp⟩
        · exact ⟨a :: b, c, r, rfl, by simp [hb, Ne.symm hr]⟩
      · rintro ⟨b, c, r, hl, hb⟩
        cases b with
        | nil => cases hl; exact .inl rfl
        | cons x b => cases hl; exact .inr ⟨b, c, r, rfl, fun h => hb (by simp [h])⟩

theorem runEnd_of_running {s : State} (h : s.Running) :
    runEnd s = match s.inputs with
      | .command c :: _ => if (decode c).any (stuckOn s) then some .stuck else none
      | plan => if (actionsOfThisRun plan).any HostInput.isCommand then none else some .successful := by
  rw [runEnd, h.1, h.2]; rfl

/-- An operation is stuck exactly when it is a frame operation with its input there and no dimension 0, over MAX_PIXELS (R7). -/
theorem stuckOn_iff (s : State) (i : Instr) : stuckOn s i = true ↔ 
   ((i = .encf ∧ s.src ≠ none) ∨ (i = .decf ∧ s.stream ≠ none)) ∧
        0 < s.cfgW ∧ 0 < s.cfgH ∧ ∃ n, s.config.maxPixels = some n ∧ n < s.cfgW * s.cfgH := by
  have hf : frameAllowed s.config s.cfgW s.cfgH = false ↔ ∃ n, s.config.maxPixels = some n ∧ n < s.cfgW * s.cfgH := by
    unfold frameAllowed; cases s.config.maxPixels <;> simp
  cases i <;> simp [stuckOn, Option.isSome_iff_ne_none, hf, Nat.pos_iff_ne_zero, and_assoc]

end Sys2Proof.Machine
end

