-- ==== Sys2Proof/Laws/Operands.lean ====
section
/-! SUPPORT. The datapath functions as bit slices: each result bit is one operand bit or a zero. -/

namespace Sys2Proof.Machine

theorem quantize_eq_slices (p : Pixel) :
    quantize p = p.r.extractLsb' 3 5 ++ p.g.extractLsb' 2 6 ++ p.b.extractLsb' 3 5 := by
  apply BitVec.eq_of_getLsbD_eq
  intro i hi
  rw [BitVec.getLsbD_append, BitVec.getLsbD_append, quantize]
  interval_cases i <;> simp

theorem reconstruct_eq_slices (w : Word565) :
    reconstruct w = { r := redField w ++ 0#3, g := greenField w ++ 0#2, b := blueField w ++ 0#3 } := by
  simp only [reconstruct, redField, greenField, blueField, Pixel.mk.injEq]
  refine ⟨?_, ?_, ?_⟩ <;>
    (apply BitVec.eq_of_getLsbD_eq; intro i hi; rw [BitVec.getLsbD_append]; interval_cases i <;> simp)

theorem joinBytes_eq_append (b0 b1 : Byte) : joinBytes b0 b1 = b1 ++ b0 := by
  apply BitVec.eq_of_getLsbD_eq
  intro i hi
  rw [BitVec.getLsbD_append]
  interval_cases i <;> simp [joinBytes]

theorem lowByte_joinBytes (b0 b1 : Byte) : lowByte (joinBytes b0 b1) = b0 := by
  apply BitVec.eq_of_getLsbD_eq
  intro i hi
  interval_cases i <;> simp [lowByte, joinBytes]

theorem highByte_joinBytes (b0 b1 : Byte) : highByte (joinBytes b0 b1) = b1 := by
  apply BitVec.eq_of_getLsbD_eq
  intro i hi
  interval_cases i <;> simp [highByte, joinBytes]

theorem joinBytes_bytes (w : Word565) : joinBytes (lowByte w) (highByte w) = w := by
  apply BitVec.eq_of_getLsbD_eq
  intro i hi
  interval_cases i <;> simp [joinBytes, lowByte, highByte]

/-- Quantizing a reconstructed word gives the word back: every kept bit returns to its place. -/
theorem quantize_reconstruct (w : Word565) : quantize (reconstruct w) = w := by
  apply BitVec.eq_of_getLsbD_eq
  intro i hi
  interval_cases i <;> simp [quantize, reconstruct]

/-- Reconstructing a quantized pixel clears the discarded bits. -/
theorem reconstruct_quantize (p : Pixel) :
    reconstruct (quantize p) = { r := p.r &&& 0xF8#8, g := p.g &&& 0xFC#8, b := p.b &&& 0xF8#8 } := by
  simp only [reconstruct, quantize, Pixel.mk.injEq]
  refine ⟨?_, ?_, ?_⟩ <;> (apply BitVec.eq_of_getLsbD_eq; intro i hi; interval_cases i <;> simp)

end Sys2Proof.Machine
end

