-- ==== Sys2Proof/Laws/PerInstr.lean ====
section
/-! SUPPORT. Statements made for every instruction, one lemma per constructor: the encoded word of each instruction selects
its own row of the opcode table (spec/30_encoding.md R67, R73). -/

namespace Sys2Proof.Laws.SelectsOwnRow

/-- The encoded word of the instruction has its row's match value under its row's mask (R67). -/
def Statement (i : Instr) : Prop :=
  match i with
  | .q565 _ _ _ => selects 0xFF000000#32 0x00000000#32 (encode i) = true
  | .d565 _     => selects 0xFFFF0000#32 0x20000000#32 (encode i) = true
  | .pk16 _     => selects 0xFFFF0000#32 0x40000000#32 (encode i) = true
  | .upk16 _ _  => selects 0xFFFF0000#32 0x60000000#32 (encode i) = true
  | .encf       => selects 0xFFFFFFFF#32 0x80000000#32 (encode i) = true
  | .decf       => selects 0xFFFFFFFF#32 0xA0000000#32 (encode i) = true

theorem q565 (r g b : Byte) : Statement (.q565 r g b) := by
  simp only [Statement, selects, encode, beq_iff_eq]
  apply BitVec.eq_of_getLsbD_eq
  intro k hk
  rw [BitVec.getLsbD_and]
  simp only [BitVec.getLsbD_append]
  interval_cases k <;> simp

theorem d565 (w : Word565) : Statement (.d565 w) := by
  simp only [Statement, selects, encode, beq_iff_eq]
  apply BitVec.eq_of_getLsbD_eq
  intro k hk
  rw [BitVec.getLsbD_and]
  simp only [BitVec.getLsbD_append]
  interval_cases k <;> simp

theorem pk16 (w : Word565) : Statement (.pk16 w) := by
  simp only [Statement, selects, encode, beq_iff_eq]
  apply BitVec.eq_of_getLsbD_eq
  intro k hk
  rw [BitVec.getLsbD_and]
  simp only [BitVec.getLsbD_append]
  interval_cases k <;> simp

theorem upk16 (b0 b1 : Byte) : Statement (.upk16 b0 b1) := by
  simp only [Statement, selects, encode, beq_iff_eq]
  apply BitVec.eq_of_getLsbD_eq
  intro k hk
  rw [BitVec.getLsbD_and]
  simp only [BitVec.getLsbD_append]
  interval_cases k <;> simp

theorem encf : Statement .encf := by
  show selects _ _ _ = true
  decide

theorem decf : Statement .decf := by
  show selects _ _ _ = true
  decide

end Sys2Proof.Laws.SelectsOwnRow
end

