-- ==== Sys2Proof/Tests/Slice0.lean ====
section
/-! SUPPORT. Tests of the model. Expected values are the spec's: worked examples and vectors of spec/95_test_vectors.md (E, F,
P and table numbers are its own), or words written out from spec/30_encoding.md R67. The second half gives, for each
statement that has hypotheses, a state and operands that meet them together. -/

namespace Sys2Proof.Tests

open Sys2Proof.Machine

/-- The next state of an outcome, if it is one. -/
def nextState (o : Host.Outcome State Fault Refusal) : Option State :=
  match o with
  | .next s => some s
  | .fault _ => none
  | .refused _ => none

/-- The fault of an outcome, if it is one. -/
def faultOf (o : Host.Outcome State Fault Refusal) : Option Fault :=
  match o with
  | .next _ => none
  | .fault f => some f
  | .refused _ => none

/-- The refusal of an outcome, if it is one. -/
def refusalOf (o : Host.Outcome State Fault Refusal) : Option Refusal :=
  match o with
  | .next _ => none
  | .fault _ => none
  | .refused r => some r

/-- The reset state with dimensions, a source and a stream. -/
def frame (w h : Nat) (src : Option Grid) (bytes : Option (List Byte)) : State :=
  { State.reset with cfgW := w, cfgH := h, src := src, stream := bytes.map Memory.ofBytes }

/-- A state in which the host does this next. -/
def withInputs (s : State) (l : List HostInput) : State := { s with inputs := l }

def px (r g b : Nat) : Pixel := { r := BitVec.ofNat 8 r, g := BitVec.ofNat 8 g, b := BitVec.ofNat 8 b }

/-- The source of program P2. -/
def sourceP2 : Grid := [[px 0 0 0, px 255 255 255], [px 100 150 200, px 255 0 0]]

/-! ## Decoding: words written out bit by bit (R67; §2.6) -/

theorem test_decode_q565 : decode 0b00000000011001001001011011001000#32 = some (.q565 100#8 150#8 200#8) := by decide
theorem test_decode_d565 : decode 0b00100000000000000110010010111001#32 = some (.d565 0x64B9#16) := by decide
theorem test_decode_pk16 : decode 0b01000000000000000110010010111001#32 = some (.pk16 0x64B9#16) := by decide
theorem test_decode_upk16 : decode 0b01100000000000000110010010111001#32 = some (.upk16 0xB9#8 0x64#8) := by decide
theorem test_decode_encf : decode 0b10000000000000000000000000000000#32 = some .encf := by decide
theorem test_decode_decf : decode 0b10100000000000000000000000000000#32 = some .decf := by decide
theorem test_decode_refuses :
    [0x2001FFFF#32, 0x80000001#32, 0x01000000#32, 0x1F000000#32, 0xC0000000#32, 0xE0000000#32, 0xFFFFFFFF#32].all
      (fun c => (decode c).isNone) = true := by decide
theorem test_encode_words :
    encode (.q565 100#8 150#8 200#8) = 0x006496C8#32 ∧ encode (.d565 0x64B9#16) = 0x200064B9#32 ∧
    encode (.upk16 0xB9#8 0x64#8) = 0x600064B9#32 := by decide
theorem test_decodeTableWord : decodeTableWord 32 0x400064B9 = some (.pk16 0x64B9#16) := by decide
theorem test_decodeTableWord_short : decodeTableWord 8 0xFF = some (.q565 0#8 0#8 0xFF#8) := by decide

/-! ## Well-formedness: an ill-formed source line for each check (R26, R66, R69) -/

theorem test_wellFormed_accepts :
    [SourceLine.q565 255 255 255, .d565 65535, .pk16 65535, .upk16 255 255, .encf, .decf, .word 4294967295, .reset,
      .cfg 0 100000, .src none, .src (some [[(1, 2, 3), (4, 5, 6)]]), .src (some []), .stream none, .stream (some [255])].all
      SourceLine.wellFormed = true := by decide
theorem test_illFormed_q565_r : (SourceLine.q565 256 0 0).wellFormed = false := by decide
theorem test_illFormed_q565_g : (SourceLine.q565 0 256 0).wellFormed = false := by decide
theorem test_illFormed_q565_b : (SourceLine.q565 0 0 256).wellFormed = false := by decide
theorem test_illFormed_d565 : (SourceLine.d565 65536).wellFormed = false := by decide
theorem test_illFormed_pk16 : (SourceLine.pk16 65536).wellFormed = false := by decide
theorem test_illFormed_upk16_b0 : (SourceLine.upk16 256 0).wellFormed = false := by decide
theorem test_illFormed_upk16_b1 : (SourceLine.upk16 0 256).wellFormed = false := by decide
theorem test_illFormed_word : (SourceLine.word 4294967296).wellFormed = false := by decide
theorem test_illFormed_src_ragged : (SourceLine.src (some [[(0, 0, 0), (0, 0, 0)], [(0, 0, 0)]])).wellFormed = false := by
  decide
theorem test_illFormed_src_component : (SourceLine.src (some [[(0, 0, 256)]])).wellFormed = false := by decide
theorem test_illFormed_stream : (SourceLine.stream (some [0, 256])).wellFormed = false := by decide

/-! ## The assembler's text (R71) -/

theorem test_parse_q565 :
    parseLine "Q565  100, 0x96, 200     ; 0x006496C8".toList = some (some (.q565 100 150 200)) := by decide
theorem test_parse_src :
    parseLine ".src [[(0,0,0), (255,255,255)], [(100,150,200), (255,0,0)]]".toList =
      some (some (.src (some [[(0, 0, 0), (255, 255, 255)], [(100, 150, 200), (255, 0, 0)]]))) := by decide
theorem test_parse_stream_empty : parseLine ".stream                 ; present".toList = some (some (.stream (some []))) := by
  decide
theorem test_parse_stream_none : parseLine ".stream none".toList = some (some (.stream none)) := by decide
theorem test_parse_rejects : parseLine "ENCF 1".toList = none ∧ parseLine "Q565 1, 2".toList = none := by decide
theorem test_assemble_word : assembleLine (.word 0xC0000000) = some (.command 0xC0000000#32) := by decide
theorem test_assemble_upk16 : assembleLine (.upk16 0xB9 0x64) = some (.command 0x600064B9#32) := by decide

/-! ## The per-pixel operations (§2.1 to §2.3) -/

theorem test_q565_example : (nextState (exec (.q565 100#8 150#8 200#8) State.reset)).bind (·.qOut) = some 0x64B9#16 := by
  decide
theorem test_q565_truncates :
    (nextState (exec (.q565 247#8 251#8 247#8) State.reset)).bind (·.qOut) = some 0xF7DE#16 := by decide
theorem test_d565_example :
    (nextState (exec (.d565 0x64B9#16) State.reset)).map (fun s => (s.rOut, s.gOut, s.bOut)) =
      some (some 96#8, some 148#8, some 200#8) := by decide
theorem test_d565_zero_fill :
    (nextState (exec (.d565 0xFFFF#16) State.reset)).map (fun s => (s.rOut, s.gOut, s.bOut)) =
      some (some 248#8, some 252#8, some 248#8) := by decide
theorem test_pk16_order :
    (nextState (exec (.pk16 0x64B9#16) State.reset)).map (fun s => (s.b0Out, s.b1Out)) =
      some (some 0xB9#8, some 0x64#8) := by decide
theorem test_upk16_order :
    (nextState (exec (.upk16 0x64#8 0xB9#8) State.reset)).bind (·.wOut) = some 0xB964#16 := by decide

/-! ## The frame operations (§2.4, P2, P4, P5) -/

theorem test_encf_P2 :
    (nextState (exec .encf (frame 2 2 (some sourceP2) (some [1#8, 2#8, 3#8])))).map
        (fun s => (s.stream.map (·.map Prod.snd), s.fault)) =
      some (some [0x00#8, 0x00#8, 0xFF#8, 0xFF#8, 0xB9#8, 0x64#8, 0x00#8, 0xF8#8], none) := by decide
theorem test_encf_F14 :
    (nextState (exec .encf (frame 2 2 (some [[px 1 2 3]]) (some [7#8])))).map (fun s => (s.fault, s.stream)) =
      some (some (.gridMismatch 1 1 2 2), none) := by decide
theorem test_decf_P5 :
    (nextState (exec .decf (frame 3 2 none (some [0x00#8, 0xF8#8, 0xE0#8, 0x07#8, 0x1F#8, 0x00#8, 0xFF#8, 0xFF#8, 0x00#8,
        0x00#8, 0x10#8, 0x84#8])))).bind (·.dst) =
      some [[px 248 0 0, px 0 252 0, px 0 0 248], [px 248 252 248, px 0 0 0, px 128 128 128]] := by decide
theorem test_decf_F6 :
    (nextState (exec .decf (frame 1 1 none (some [])))).map (fun s => (s.fault, s.dst)) =
      some (some (.sizeMismatch 0 2), none) := by decide
theorem test_decf_E6 :
    (nextState (exec .decf (frame 10 5 none (some (List.replicate 99 0#8))))).bind (·.fault) =
      some (.sizeMismatch 99 100) := by decide
theorem test_fault_order_F11_F12 :
    (nextState (exec .decf (frame 0 0 none none))).bind (·.fault) = some .ioError ∧
    (nextState (exec .encf (frame 0 0 none none))).bind (·.fault) = some .decodeError := by decide
theorem test_fault_order_F13 :
    (nextState (exec .encf (frame 5 0 (some []) none))).bind (·.fault) = some (.invalidDimension 5 0) := by decide
theorem test_stream_offsets_E5 :
    lowOffset (wordIndex 10 3 2) = 46 ∧ highOffset (wordIndex 10 3 2) = 47 := by decide

/-! ## Steps -/

theorem test_withFetchWord_runs :
    (nextState (step (State.reset.withFetchWord 32 0x006496C8))).bind (·.qOut) = some 0x64B9#16 := by decide
theorem test_step_P6b :
    (nextState (step (withInputs State.reset [.command 0xC0000000#32, .command 0x00010203#32]))).map (·.refused) =
      some true := by decide
theorem test_step_after_refusal :
    faultOf (step (withInputs { State.reset with refused := true } [.command 0x00010203#32])) = some .runRefused := by decide
/-- The model's choice (notes/assumptions/16.md): behind a command that has no step a reset is not reached; at the front of
the plan it is. -/
theorem test_step_reset_after_fault :
    faultOf (step (withInputs { State.reset with fault := some .ioError } [.command 0#32, .reset])) = some .runFaulted ∧
    nextState (step (withInputs { State.reset with fault := some .ioError } [.reset])) = some State.reset := by decide
theorem test_step_ragged :
    refusalOf (step (withInputs State.reset [.src (some [[px 0 0 0], []])])) = some .raggedGrid := by decide
theorem test_step_no_input : faultOf (step State.reset) = some .noInput := by decide
theorem test_hostView_fault :
    (hostView { State.reset with fault := some (.sizeMismatch 99 100) }).fault = some (1, [99, 100]) := by decide
theorem test_runEnd :
    runEnd State.reset = some .successful ∧ runEnd (withInputs State.reset [.command 0x80000000#32]) = none ∧
    runEnd (withInputs { frame 2 2 (some sourceP2) none with config := { dimBits := none, maxPixels := some 3 } }
      [.command 0x80000000#32]) = some .stuck := by decide

/-- A command behind a reset belongs to the next run (R12, R141); one behind another action is still this run's. -/
theorem test_runEnd_reset :
    runEnd (withInputs State.reset [.reset, .command 0x80000000#32]) = some .successful ∧
    runEnd (withInputs State.reset [.cfg 1 1, .command 0x80000000#32]) = none := by decide

/-! ## Witnesses: the hypotheses of each statement hold together -/

theorem witness_EncodeInvertsDecode : ∃ c i, decode c = some i := ⟨0x006496C8#32, .q565 100#8 150#8 200#8, by decide⟩

theorem witness_CommandsSelectTheirRows :
    0x00FFFFFF#32 &&& 0xFF000000#32 = 0x00000000#32 ∧ 0x2000FFFF#32 &&& 0xFFFF0000#32 = 0x20000000#32 ∧
    0x4000FFFF#32 &&& 0xFFFF0000#32 = 0x40000000#32 ∧ 0x6000FFFF#32 &&& 0xFFFF0000#32 = 0x60000000#32 ∧
    0x80000000#32 &&& 0xFFFFFFFF#32 = 0x80000000#32 ∧ 0xA0000000#32 &&& 0xFFFFFFFF#32 = 0xA0000000#32 := by decide

theorem witness_RefusedCommandsSetRefused : ∃ (s : State) (c : Command) (rest : List HostInput),
    s.Running ∧ s.inputs = .command c :: rest ∧ decode c = none :=
  ⟨withInputs State.reset [.command 0xC0000000#32], 0xC0000000#32, [], ⟨rfl, rfl⟩, rfl, by decide⟩

/-- Each condition of R68 at a boundary: the first word past the one that still has a meaning. -/
theorem witness_RefusedCommandsSetRefused_conditions :
    [0xC0000000#32, 0xE0000000#32, 0x01000000#32, 0x20010000#32, 0x40010000#32, 0x60010000#32, 0x80000001#32,
      0xA0800000#32].all (fun c => (decode c).isNone) = true := by decide

theorem witness_OutOfRangeOperandsAreRefused :
    (assembleLine (.q565 255 255 255)).isSome = true ∧ assembleLine (.q565 256 0 0) = none ∧
    (assembleLine (.d565 65535)).isSome = true ∧ assembleLine (.pk16 65536) = none ∧
    (assembleLine (.upk16 255 255)).isSome = true ∧ assembleLine (.upk16 0 256) = none := by decide

theorem witness_StepPerformsTheDecodedCommand : ∃ (s : State) (c : Command) (rest : List HostInput) (i : Instr),
    s.inputs = .command c :: rest ∧ decode c = some i :=
  ⟨withInputs State.reset [.command 0x80000000#32], 0x80000000#32, [], .encf, rfl, by decide⟩

theorem witness_StepsTakeActionsInOrder : ∃ s t : State, step s = .next t :=
  ⟨withInputs State.reset [.command 0x006496C8#32], _, rfl⟩

theorem witness_OnlyResetStartsANewRun_reset : ∃ (s : State) (rest : List HostInput), s.inputs = .reset :: rest :=
  ⟨withInputs State.reset [.reset], [], rfl⟩

theorem witness_OnlyResetStartsANewRun_other : ∃ s t : State, step s = .next t ∧
    (∀ rest, s.inputs ≠ .reset :: rest) ∧ s.fault = some .ioError ∧ s.refused = true :=
  ⟨withInputs { State.reset with fault := some .ioError, refused := true } [.cfg 1 1], _, rfl,
    (by intro rest h; cases h), rfl, rfl⟩

theorem witness_NoCommandStepsAfterAFault : ∃ (s : State) (r : FaultRecord), s.fault = some r :=
  ⟨{ State.reset with fault := some .ioError }, .ioError, rfl⟩

theorem witness_NoCommandStepsAfterAFault_hostAction : ∃ (s t : State) (a : HostInput), s.fault = some .ioError ∧ a ≠ .reset ∧
    step { s with inputs := a :: [] } = .next t :=
  ⟨{ State.reset with fault := some .ioError }, _, .cfg 1 1, rfl, (by intro h; cases h), rfl⟩

/-- Registers of 9 bits: 511 fits, 512 does not. -/
theorem witness_HostWritesTheConfiguration : ∃ s : State, s.inputs = [.cfg 511 320] ∧
    (dimensionFits s.config 511 = true ∧ dimensionFits s.config 320 = true) ∧ dimensionFits s.config 512 = false :=
  ⟨withInputs { State.reset with config := { dimBits := some 9, maxPixels := none } } [.cfg 511 320], rfl, by decide⟩

theorem witness_HostSuppliesRectangularGrids :
    (∃ s : State, s.inputs = [.src none]) ∧ (∃ s : State, s.inputs = [.src (some [])]) ∧
    (∀ row ∈ sourceP2, ∀ row' ∈ sourceP2, row.length = row'.length) ∧
    ¬ (∀ row ∈ ([[px 0 0 0], []] : Grid), ∀ row' ∈ ([[px 0 0 0], []] : Grid), row.length = row'.length) :=
  ⟨⟨withInputs State.reset [.src none], rfl⟩, ⟨withInputs State.reset [.src (some [])], rfl⟩, by decide, by decide⟩

theorem witness_HostSuppliesTheStream :
    (∃ s : State, s.inputs = [.stream none]) ∧ (∃ s : State, s.inputs = [.stream (some [0xB9#8])]) :=
  ⟨⟨withInputs State.reset [.stream none], rfl⟩, ⟨withInputs State.reset [.stream (some [0xB9#8])], rfl⟩⟩

/-- The reset state runs: it meets the hypothesis of every statement about the per-pixel operations, which hold for all
operands (Q565QuantizesByTheFormula, Q565WorksLaneByLane, Q565IgnoresTheDiscardedBits, Q565HasExactly256Preimages,
Q565OrIsASum, Pk16SplitsLowByteFirst, Upk16JoinsLowByteFirst, D565ReconstructsByTheFormula, D565FillsWithZeros,
D565WorksLaneByLane, QuantizeAndReconstructAreInverse, PackAndUnpackAreInverse). -/
theorem witness_Running : State.reset.Running := ⟨rfl, rfl⟩

/-- The masks of those statements' encoding clauses, each met by the largest word of its row. -/
theorem witness_operand_clauses :
    0x00FFFFFF#32 &&& 0xFF000000#32 = 0x00000000#32 ∧ 0x4000FFFF#32 &&& 0xFFFF0000#32 = 0x40000000#32 ∧
    0x6000FFFF#32 &&& 0xFFFF0000#32 = 0x60000000#32 ∧ 0x2000FFFF#32 &&& 0xFFFF0000#32 = 0x20000000#32 := by decide

theorem witness_QuantizeAndReconstructAreInverse_injective :
    State.reset.Running ∧ exec (.d565 0x64B9#16) State.reset = exec (.d565 0x64B9#16) State.reset := ⟨⟨rfl, rfl⟩, rfl⟩

theorem witness_PixelOperationsNeverFault : ∃ (s : State) (i : Instr), s.Running ∧ i ≠ .encf ∧ i ≠ .decf :=
  ⟨State.reset, .pk16 0x64B9#16, ⟨rfl, rfl⟩, by decide, by decide⟩

theorem witness_WordIndexIsABijection : (9 < 10 ∧ 4 < 5) ∧ 49 < 10 * 5 := by decide

theorem witness_EncfEncodesTheFrame : ∃ (s : State) (g : Grid), s.Running ∧ s.src = some g ∧ 0 < s.cfgW ∧ 0 < s.cfgH ∧
    frameAllowed s.config s.cfgW s.cfgH = true ∧ g.length = s.cfgH ∧ (∀ row ∈ g, row.length = s.cfgW) :=
  ⟨{ frame 2 2 (some sourceP2) none with config := { dimBits := some 9, maxPixels := some 4 } }, sourceP2, ⟨rfl, rfl⟩, rfl,
    by decide, by decide, by decide, by decide, by decide⟩

theorem witness_DecfDecodesTheFrame : ∃ (s : State) (m : Memory), s.Running ∧ s.stream = some m ∧ Memory.wf m = true ∧
    0 < s.cfgW ∧ 0 < s.cfgH ∧ frameAllowed s.config s.cfgW s.cfgH = true ∧ m.length = 2 * s.cfgW * s.cfgH :=
  ⟨frame 1 1 none (some [0xB9#8, 0x64#8]), _, ⟨rfl, rfl⟩, rfl, by decide, by decide, by decide, by decide, by decide⟩

theorem witness_EncfFaultsOnItsSource_absent : (frame 0 0 none none).Running ∧ (frame 0 0 none none).src = none :=
  ⟨⟨rfl, rfl⟩, rfl⟩

theorem witness_EncfFaultsOnItsSource_mismatch : ∃ (s : State) (g : Grid), s.Running ∧ s.src = some g ∧
    rectangular g = true ∧ 0 < s.cfgW ∧ 0 < s.cfgH ∧ frameAllowed s.config s.cfgW s.cfgH = true ∧
    ¬ (gridWidth g = s.cfgW ∧ gridHeight g = s.cfgH) :=
  ⟨frame 2 3 (some sourceP2) none, sourceP2, ⟨rfl, rfl⟩, rfl, by decide, by decide, by decide, by decide, by decide⟩

theorem witness_DecfFaultsOnItsStream_absent : (frame 0 0 none none).Running ∧ (frame 0 0 none none).stream = none :=
  ⟨⟨rfl, rfl⟩, rfl⟩

/-- One byte too few and one too many. -/
theorem witness_DecfFaultsOnItsStream_mismatch :
    (∃ (s : State) (m : Memory), s.Running ∧ s.stream = some m ∧ 0 < s.cfgW ∧ 0 < s.cfgH ∧
      frameAllowed s.config s.cfgW s.cfgH = true ∧ m.length = s.cfgW * s.cfgH * 2 - 1) ∧
    (∃ (s : State) (m : Memory), s.Running ∧ s.stream = some m ∧ 0 < s.cfgW ∧ 0 < s.cfgH ∧
      frameAllowed s.config s.cfgW s.cfgH = true ∧ m.length = s.cfgW * s.cfgH * 2 + 1) :=
  ⟨⟨frame 1 1 none (some [0#8]), _, ⟨rfl, rfl⟩, rfl, by decide, by decide, by decide, by decide⟩,
   ⟨frame 1 1 none (some [0#8, 0#8, 0#8]), _, ⟨rfl, rfl⟩, rfl, by decide, by decide, by decide, by decide⟩⟩

theorem witness_ZeroDimensionsFault : ∃ (s : State) (g : Grid) (m : Memory), s.Running ∧ (s.cfgW = 0 ∨ s.cfgH = 0) ∧
    s.src = some g ∧ s.stream = some m :=
  ⟨frame 0 5 (some []) (some []), [], [], ⟨rfl, rfl⟩, .inl rfl, rfl, rfl⟩

/-- The least frame over MAX_PIXELS. -/
theorem witness_FramesOverMaxPixelsAreStuck : ∃ (s : State) (n : Nat) (g : Grid) (m : Memory), s.Running ∧
    s.config.maxPixels = some n ∧ n + 1 = s.cfgW * s.cfgH ∧ s.src = some g ∧ s.stream = some m :=
  ⟨{ frame 2 2 (some sourceP2) (some []) with config := { dimBits := none, maxPixels := some 3 } }, 3, sourceP2, [],
    ⟨rfl, rfl⟩, rfl, rfl, rfl, rfl⟩

theorem witness_FaultEntryChangesNothingElse : ∃ (i : Instr) (s t : State), exec i s = .next t ∧ t.fault ≠ none :=
  ⟨.decf, State.reset, _, rfl, by decide⟩

theorem witness_OperationsWriteOnlyTheirOwn : ∃ (i : Instr) (s t : State), exec i s = .next t :=
  ⟨.encf, frame 2 2 (some sourceP2) none, _, rfl⟩

theorem witness_EncfDependsOnlyOnItsInputs : ∃ s s' t t' : State, s.Running ∧ s'.Running ∧ s.config = s'.config ∧
    s.cfgW = s'.cfgW ∧ s.cfgH = s'.cfgH ∧ s.src = s'.src ∧ exec .encf s = .next t ∧ exec .encf s' = .next t' ∧ s ≠ s' :=
  ⟨frame 2 2 (some sourceP2) none, frame 2 2 (some sourceP2) (some [7#8]), _, _, ⟨rfl, rfl⟩, ⟨rfl, rfl⟩, rfl, rfl, rfl,
    rfl, rfl, rfl, by decide⟩

theorem witness_DecfDependsOnlyOnItsInputs : ∃ s s' t t' : State, s.Running ∧ s'.Running ∧ s.config = s'.config ∧
    s.cfgW = s'.cfgW ∧ s.cfgH = s'.cfgH ∧ s.stream = s'.stream ∧ exec .decf s = .next t ∧ exec .decf s' = .next t' ∧
    s ≠ s' :=
  ⟨frame 1 1 none (some [0#8, 1#8]), frame 1 1 (some sourceP2) (some [0#8, 1#8]), _, _, ⟨rfl, rfl⟩, ⟨rfl, rfl⟩, rfl, rfl,
    rfl, rfl, rfl, rfl, by decide⟩

theorem witness_RepeatingAnOperationChangesNothing : ∃ (i : Instr) (s t : State), exec i s = .next t ∧ t.fault = none :=
  ⟨.encf, frame 2 2 (some sourceP2) none, _, rfl, rfl⟩

theorem witness_PixelOperationsCommute : ∃ (i j : Instr) (s t u : State), i ≠ .encf ∧ i ≠ .decf ∧ unitOf i ≠ unitOf j ∧
    u.fault = none ∧ exec i s = .next t ∧ exec j t = .next u :=
  ⟨.d565 0x64B9#16, .encf, frame 2 2 (some sourceP2) none, _, _, by decide, by decide, by decide, rfl, rfl, rfl⟩

theorem witness_FrameRoundTrip : ∃ (s t u v : State) (g d : Grid), s.src = some g ∧ exec .encf s = .next t ∧
    t.fault = none ∧ t.Running ∧ t.config = s.config ∧ t.cfgW = s.cfgW ∧ t.cfgH = s.cfgH ∧
    exec .decf t = .next u ∧ u.dst = some d ∧
    v.Running ∧ v.config = s.config ∧ v.cfgW = s.cfgW ∧ v.cfgH = s.cfgH ∧ v.src = some d :=
  ⟨frame 2 2 (some sourceP2) none, _, _, frame 2 2 (some [[px 0 0 0, px 248 252 248], [px 96 148 200, px 248 0 0]]) none,
    sourceP2, _, rfl, rfl, rfl, ⟨rfl, rfl⟩, rfl, rfl, rfl, rfl, rfl, ⟨rfl, rfl⟩, rfl, rfl, rfl, by decide⟩

theorem witness_OtherDimensionsRearrangeTheFrame : ∃ (s t t' : State) (g : Grid), s.src = some g ∧
    exec .encf s = .next t ∧ t.fault = none ∧ t'.Running ∧ t'.config = s.config ∧
    t'.cfgW * t'.cfgH = s.cfgW * s.cfgH ∧ t'.stream = t.stream ∧ t'.cfgW ≠ s.cfgW :=
  ⟨frame 2 2 (some sourceP2) none, _, { frame 4 1 none none with stream := some (encodeFrame sourceP2) }, sourceP2, rfl,
    rfl, rfl, ⟨rfl, rfl⟩, rfl, rfl, rfl, by decide⟩

/-- A state that meets the invariant, on a frame over MAX_PIXELS, with ENCF next: the stuck clause. -/
theorem witness_CommandsStepExactlyWhileTheRunGoesOn : ∃ (s : State) (c : Command), s.Inv ∧ s.inputs = [.command c] ∧
    s.Running ∧ ∀ t, step s ≠ .next t := by
  refine ⟨withInputs { frame 2 2 (some sourceP2) none with config := { dimBits := none, maxPixels := some 3 } }
    [.command 0x80000000#32], 0x80000000#32, ?_, rfl, ⟨rfl, rfl⟩, ?_⟩
  · constructor <;> simp [withInputs, frame, State.reset, dimensionFits]
    decide
  · intro t h
    have hf : step (withInputs { frame 2 2 (some sourceP2) none with config := { dimBits := none, maxPixels := some 3 } }
      [.command 0x80000000#32]) = .fault .frameTooLarge := rfl
    rw [hf] at h
    cases h

/-- The other side of the equivalence: a running run with a command that steps, and a faulted run, whose command does not. -/
theorem witness_CommandsStepExactlyWhileTheRunGoesOn_sides :
    (∃ s t : State, s.Inv ∧ s.inputs = [.command 0x80000000#32] ∧ runEnd s = none ∧ step s = .next t) ∧
    (∃ s : State, s.Inv ∧ s.inputs = [.command 0x80000000#32] ∧ runEnd s = some .faulted) ∧
    (∃ s : State, s.Inv ∧ s.inputs = [.command 0x80000000#32] ∧ runEnd s = some .refused) := by
  refine ⟨⟨withInputs State.reset [.command 0x80000000#32], _, ?_, rfl, rfl, rfl⟩,
    ⟨withInputs { State.reset with fault := some .ioError } [.command 0x80000000#32], ?_, rfl, rfl⟩,
    ⟨withInputs { State.reset with refused := true } [.command 0x80000000#32], ?_, rfl, rfl⟩⟩ <;>
  constructor <;> simp [withInputs, State.reset, Config.default, dimensionFits, FaultRecord.truthful]

theorem witness_StepKeepsInvariant : ∃ s t : State, s.Inv ∧ step s = .next t := by
  refine ⟨withInputs State.reset [.command 0xA0000000#32], _, ?_, rfl⟩
  constructor <;> simp [withInputs, State.reset, Config.default, dimensionFits]

theorem witness_ParametersNeverChange : ∃ s t : State, step s = .next t :=
  ⟨withInputs State.reset [.reset], _, rfl⟩

/-- A stream in canonical form, a fault, and the two host actions whose values are read back. -/
theorem witness_HostReadsWhatTheStateHolds :
    (∃ (s : State) (m : Memory), s.stream = some m ∧ Memory.wf m = true ∧ m.length = 2 ∧ s.fault = some (.sizeMismatch 2 4)) ∧
    (∃ s t : State, s.inputs = [.cfg 511 0] ∧ step s = .next t) ∧
    (∃ s t : State, s.inputs = [.stream (some [0xB9#8, 0x64#8])] ∧ step s = .next t) :=
  ⟨⟨{ frame 2 1 none (some [0xB9#8, 0x64#8]) with fault := some (.sizeMismatch 2 4) }, _, rfl, by decide, by decide, rfl⟩,
   ⟨withInputs State.reset [.cfg 511 0], _, rfl, rfl⟩, ⟨withInputs State.reset [.stream (some [0xB9#8, 0x64#8])], _, rfl, rfl⟩⟩

/-- Two different states with the inputs of ENCF in common and one step each; two on which DECF is stuck; and two on which
a per-pixel operation runs. -/
theorem witness_SameInputsGiveTheSameResult :
    (∃ s s' t : State, s.Running ∧ s'.Running ∧ s.config = s'.config ∧
      (s.cfgW = s'.cfgW ∧ s.cfgH = s'.cfgH ∧ s.src = s'.src) ∧ exec .encf s = .next t ∧ s ≠ s') ∧
    (∃ s s' : State, s.Running ∧ s'.Running ∧ s.config = s'.config ∧
      (s.cfgW = s'.cfgW ∧ s.cfgH = s'.cfgH ∧ s.stream = s'.stream) ∧ exec .decf s = .fault .frameTooLarge ∧ s ≠ s') ∧
    (∃ s s' t : State, s.Running ∧ s'.Running ∧ s.config = s'.config ∧ exec (.pk16 0x64B9#16) s = .next t ∧ s ≠ s') :=
  ⟨⟨frame 2 2 (some sourceP2) none, frame 2 2 (some sourceP2) (some [7#8]), _, ⟨rfl, rfl⟩, ⟨rfl, rfl⟩, rfl, ⟨rfl, rfl, rfl⟩,
    rfl, by decide⟩,
   ⟨{ frame 2 2 none (some []) with config := { dimBits := none, maxPixels := some 3 } },
    { frame 2 2 (some sourceP2) (some []) with config := { dimBits := none, maxPixels := some 3 } }, ⟨rfl, rfl⟩, ⟨rfl, rfl⟩,
    rfl, ⟨rfl, rfl, rfl⟩, rfl, by decide⟩,
   ⟨State.reset, frame 1 1 none none, _, ⟨rfl, rfl⟩, ⟨rfl, rfl⟩, rfl, rfl, by decide⟩⟩

/-- The greatest numbers that fit and the least that do not; a ragged grid. -/
theorem witness_OutOfRangeDirectivesAreRefused :
    (assembleLine (.word 4294967295)).isSome = true ∧ assembleLine (.word 4294967296) = none ∧
    (assembleLine (.src (some [[(255, 255, 255)]]))).isSome = true ∧ assembleLine (.src (some [[(0, 256, 0)]])) = none ∧
    assembleLine (.src (some [[(0, 0, 0)], []])) = none ∧
    (assembleLine (.stream (some [0, 255]))).isSome = true ∧ assembleLine (.stream (some [0, 256])) = none := by decide

theorem witness_RunsEndInOneOfThreeWays : ∃ s : State, s.Inv ∧ s.inputs = [.reset, .command 0x80000000#32] ∧
    runEnd s = some .successful := by
  refine ⟨withInputs State.reset [.reset, .command 0x80000000#32], ?_, rfl, rfl⟩
  constructor <;> simp [withInputs, State.reset, Config.default, dimensionFits]

/-- A stuck run of a state that meets the invariant. -/
theorem witness_RunsEndInOneOfThreeWays_stuck : ∃ s : State, s.Inv ∧ runEnd s = some .stuck := by
  refine ⟨withInputs { frame 2 2 (some sourceP2) none with config := { dimBits := none, maxPixels := some 3 } }
    [.command 0x80000000#32], ?_, by decide⟩
  constructor <;> simp [withInputs, frame, State.reset, dimensionFits]
  decide

end Sys2Proof.Tests
end

section
/-! PROOFS. The implementation parameters of spec/00_scope.md R7: a frame over MAX_PIXELS is stuck, and no step changes a
parameter. -/

namespace Sys2Proof.Machine

/-! ## A frame over MAX_PIXELS -/

theorem frameAllowed_eq_false_iff (cfg : Config) (w h : Nat) :
    frameAllowed cfg w h = false ↔ ∃ n, cfg.maxPixels = some n ∧ n < w * h := by
  unfold frameAllowed
  cases cfg.maxPixels <;> simp

/-- A frame over MAX_PIXELS has no dimension 0, so the check that precedes MAX_PIXELS in R127 does not fault. -/
theorem frameChecks_overMaxPixels (u : FrameUnit) {s : State} {n : Nat} (hn : s.config.maxPixels = some n)
    (hlt : n < s.cfgW * s.cfgH) (k : Host.Outcome State Fault Refusal) : frameChecks u s k = .fault .frameTooLarge := by
  have hdim : ¬ (s.cfgW = 0 ∨ s.cfgH = 0) := by
    rw [← Nat.mul_eq_zero]
    omega
  have hover : frameAllowed s.config s.cfgW s.cfgH = false := (frameAllowed_eq_false_iff ..).mpr ⟨n, hn, hlt⟩
  simp [frameChecks, hdim, hover]

/-- Settles O36: in a running state with its input present, each frame operation comes to the checks they share, and these
stop at MAX_PIXELS. -/
theorem framesOverMaxPixelsAreStuck : Obligations.FramesOverMaxPixelsAreStuck := by
  intro s n hrun hn hlt
  constructor
  · intro g hsrc
    simp [exec, execEncf, whileRunning_of_running hrun, hsrc, frameChecks_overMaxPixels .encoder hn hlt]
  · intro m hstream
    simp [exec, execDecf, whileRunning_of_running hrun, hstream, frameChecks_overMaxPixels .decoder hn hlt]

/-! ## The parameters are kept -/

@[simp] theorem raiseFault_config (u : FrameUnit) (r : FaultRecord) (s : State) :
    (raiseFault u r s).config = s.config := by
  cases u <;> rfl

/-- An operation keeps the parameters, whether it succeeds or faults. -/
theorem exec_config {i : Instr} {s t : State} (h : exec i s = .next t) : t.config = s.config := by
  cases i with
  | q565 r g b => obtain ⟨-, rfl⟩ := execQ565_eq_next.mp h; simp
  | d565 w => obtain ⟨-, rfl⟩ := execD565_eq_next.mp h; simp
  | pk16 w => obtain ⟨-, rfl⟩ := execPk16_eq_next.mp h; simp
  | upk16 b0 b1 => obtain ⟨-, rfl⟩ := execUpk16_eq_next.mp h; simp
  | encf =>
    obtain ⟨-, ⟨-, rfl⟩ | ⟨g, -, ⟨-, rfl⟩ | ⟨-, -, -, ⟨-, rfl⟩ | ⟨-, rfl⟩⟩⟩⟩ := execEncf_cases h <;> simp
  | decf =>
    obtain ⟨-, ⟨-, rfl⟩ | ⟨m, -, ⟨-, rfl⟩ | ⟨-, -, -, ⟨-, g, -, rfl⟩ | ⟨-, rfl⟩⟩⟩⟩ := execDecf_cases h <;> simp

/-- Settles O48: whatever the step performs, an operation, a refusal, a reset or another host action, the parameters stay. -/
theorem parametersNeverChange : Obligations.ParametersNeverChange := by
  intro s t h
  obtain ⟨a, rest, -, hcases⟩ := step_cases h
  obtain ⟨c, -, ⟨i, -, hexec⟩ | ⟨-, -, rfl⟩⟩ | ⟨-, rfl⟩ | ⟨w, hgt, -, -, -, rfl⟩ | ⟨g, -, -, rfl⟩ | ⟨bs, -, rfl⟩ := hcases
  case inl.inl => simpa using exec_config hexec
  all_goals simp

end Sys2Proof.Machine
end

section
/-! PROOFS. What the host writes, reads and issues (spec/10_state.md R20-R35), and the reset state (R33): a step performs
the action at the front of the plan, and each host action has one law of its own. -/

namespace Sys2Proof.Machine

/-! ## The action at the front of the plan -/

/-- A step performs the first action of the plan, on the state whose plan has lost it (R53). -/
theorem step_eq_performInput {s : State} {a : HostInput} {rest : List HostInput} (hin : s.inputs = a :: rest) :
    step s = performInput a (s.setInputs rest) := by
  simp [step, performNext, hin]

theorem performCommand_of_decode {c : Command} {i : Instr} (hdec : decode c = some i) (s : State) :
    performCommand c s = exec i s := by
  simp [performCommand, hdec]

/-- Settles O7: the first action is the command, and the command is performed as what it decodes to. -/
theorem stepPerformsTheDecodedCommand : Obligations.StepPerformsTheDecodedCommand := by
  intro s c rest i hin hdec
  calc step s = performCommand c (s.setInputs rest) := step_eq_performInput hin
    _ = exec i (s.setInputs rest) := performCommand_of_decode hdec _

/-! ## Writing the configuration -/

theorem hostSetCfg_of_fits {s : State} {w h : Nat}
    (hfits : dimensionFits s.config w = true ∧ dimensionFits s.config h = true) :
    hostSetCfg w h s = .next (s.setCfg w h) := by
  simp [hostSetCfg, hfits]

theorem hostSetCfg_of_not_fits {s : State} {w h : Nat}
    (hwide : ¬ (dimensionFits s.config w = true ∧ dimensionFits s.config h = true)) :
    hostSetCfg w h s = .refused .dimensionTooWide := by
  simp [hostSetCfg, hwide]

/-- Settles O12: the step is the host's write, which turns on whether both values fit. -/
theorem hostWritesTheConfiguration : Obligations.HostWritesTheConfiguration := by
  intro s w h rest hin
  have hstep : step s = hostSetCfg w h (s.setInputs rest) := step_eq_performInput hin
  rw [hstep]
  exact ⟨hostSetCfg_of_fits (s := s.setInputs rest), hostSetCfg_of_not_fits (s := s.setInputs rest)⟩

/-! ## Supplying SRC and STREAM -/

theorem hostSetSrc_of_rectangular {s : State} {g : Grid} (hrect : rectangular g = true) :
    hostSetSrc (some g) s = .next (s.setSrc (some g)) := by
  simp [hostSetSrc, hrect]

theorem hostSetSrc_of_not_rectangular {s : State} {g : Grid} (hragged : ¬ rectangular g = true) :
    hostSetSrc (some g) s = .refused .raggedGrid := by
  simp [hostSetSrc, hragged]

/-- Settles O13: the check of the host action is that any two rows have one length. -/
theorem hostSuppliesRectangularGrids : Obligations.HostSuppliesRectangularGrids := by
  intro s rest
  refine ⟨step_eq_performInput, fun g hin => ?_⟩
  have hstep : step s = hostSetSrc (some g) (s.setInputs rest) := step_eq_performInput hin
  rw [hstep, ← rectangular_iff_rows]
  exact ⟨hostSetSrc_of_rectangular, hostSetSrc_of_not_rectangular⟩

/-- Settles O14: the stream supplied is the one made of the bytes. -/
theorem hostSuppliesTheStream : Obligations.HostSuppliesTheStream := by
  intro s rest
  refine ⟨step_eq_performInput, fun bs hin => ⟨Memory.ofBytes bs, step_eq_performInput hin, ?_⟩⟩
  exact ⟨Memory.ofBytes_length bs, Memory.wf_ofBytes bs, Memory.read_ofBytes bs⟩

/-! ## What the host reads -/

/-- After a write of the configuration that is not refused, the host reads the values written. -/
theorem hostView_cfg_of_step {s t : State} {w h : Nat} {rest : List HostInput} (hin : s.inputs = .cfg w h :: rest)
    (hstep : step s = .next t) : (hostView t).cfgW = w ∧ (hostView t).cfgH = h := by
  have hwrite : hostSetCfg w h (s.setInputs rest) = .next t := (step_eq_performInput hin).symm.trans hstep
  by_cases hfits : dimensionFits s.config w = true ∧ dimensionFits s.config h = true
  · rw [hostSetCfg_of_fits (s := s.setInputs rest) hfits] at hwrite
    cases hwrite
    exact ⟨rfl, rfl⟩
  · rw [hostSetCfg_of_not_fits (s := s.setInputs rest) hfits] at hwrite
    cases hwrite

/-- After a supply of STREAM, the host reads the bytes supplied. -/
theorem hostView_stream_of_step {s t : State} {bs : List Byte} {rest : List HostInput}
    (hin : s.inputs = .stream (some bs) :: rest) (hstep : step s = .next t) : (hostView t).stream = some bs := by
  rw [step_eq_performInput hin] at hstep
  cases hstep
  exact hostView_setStream_ofBytes _ bs

/-- Settles O49: the ports and registers read as fields of the state; STREAM in its canonical form, and what was written, by
the lemmas about the reads. -/
theorem hostReadsWhatTheStateHolds : Obligations.HostReadsWhatTheStateHolds := by
  intro s
  refine ⟨⟨rfl, rfl, rfl, rfl, rfl, rfl, rfl, rfl, rfl, rfl, rfl⟩, ?streamAbsent, fun m => hostView_stream_of_wf,
    ?faultNone, ?faultRecord, fun w h rest t => hostView_cfg_of_step, fun bs rest t => hostView_stream_of_step⟩
  case streamAbsent => intro hs; simp [hostView, hs]
  case faultNone => intro hf; simp [hostView, hf]
  case faultRecord => intro r hf; simp [hostView, hf]

/-! ## The reset state -/

/-- Settles O9: each element has the value the reset state gives it. -/
theorem resetStateIsAsListed : Obligations.ResetStateIsAsListed :=
  ⟨rfl, rfl, rfl, rfl, rfl, rfl, rfl, rfl, rfl, rfl, rfl, rfl, rfl, rfl⟩

/-- Settles O15: the host reads what the reset state holds, and that is no value. -/
theorem nothingReadsAsANumberAfterReset : Obligations.NothingReadsAsANumberAfterReset := by
  obtain ⟨-, -, hq, hr, hg, hb, hb0, hb1, hw, -, hstream, hdst, hfault, -⟩ := resetStateIsAsListed
  obtain ⟨⟨-, -, vq, vr, vg, vb, vb0, vb1, vw, vdst, -⟩, vstream, -, vfault, -⟩ := hostReadsWhatTheStateHolds State.reset
  exact ⟨vq.trans hq, vr.trans hr, vg.trans hg, vb.trans hb, vb0.trans hb0, vb1.trans hb1, vw.trans hw, vstream hstream,
    vdst.trans hdst, vfault hfault⟩

/-- Settles O47: SRC, STREAM, DST and FAULT hold nothing, and unbounded registers hold 320 and 240. -/
theorem resetMeetsInvariant : Obligations.ResetMeetsInvariant where
  streamWf := nofun
  srcRectangular := nofun
  dstRectangular := nofun
  dstZeroFilled := nofun
  oneEnd := .inl rfl
  faultTruthful := nofun
  cfgFits := ⟨rfl, rfl⟩
  dimBitsEnough := nofun

end Sys2Proof.Machine
end

section
/-! PROOFS. What an operation writes and what it reads (spec/10_state.md R24, R37): the frame of every operation, what an
operation that succeeds needs and writes, and the commutation of operations of different units. -/

namespace Sys2Proof.Machine

/-! ## The frame of an operation -/

/-- Settles O38: the state an operation answers is, case by case, an update of its own elements. -/
theorem operationsWriteOnlyTheirOwn : Obligations.OperationsWriteOnlyTheirOwn := by
  intro i s t h
  cases i with
  | q565 r g b => obtain ⟨-, rfl⟩ := execQ565_eq_next.mp h; simp
  | d565 w => obtain ⟨-, rfl⟩ := execD565_eq_next.mp h; simp
  | pk16 w => obtain ⟨-, rfl⟩ := execPk16_eq_next.mp h; simp
  | upk16 b0 b1 => obtain ⟨-, rfl⟩ := execUpk16_eq_next.mp h; simp
  | encf =>
    obtain ⟨-, ⟨-, rfl⟩ | ⟨g, -, ⟨-, rfl⟩ | ⟨-, -, -, ⟨-, rfl⟩ | ⟨-, rfl⟩⟩⟩⟩ := execEncf_cases h <;>
      simp [raiseFault_encoder]
  | decf =>
    obtain ⟨-, ⟨-, rfl⟩ | ⟨m, -, ⟨-, rfl⟩ | ⟨-, -, -, ⟨-, g, -, rfl⟩ | ⟨-, rfl⟩⟩⟩⟩ := execDecf_cases h <;>
      simp [raiseFault_decoder]

/-! ## What a successful operation needs and writes -/

/-- What an operation needs of the state, in a running run, to succeed: a per-pixel operation nothing (R126), a frame
operation that none of its checks stops it (R127). -/
def succeedsOn (s : State) : Instr → Prop
  | .q565 _ _ _ => True
  | .d565 _ => True
  | .pk16 _ => True
  | .upk16 _ _ => True
  | .encf => ∃ g, s.src = some g ∧ 0 < s.cfgW ∧ 0 < s.cfgH ∧ frameAllowed s.config s.cfgW s.cfgH = true ∧
      hasShape s.cfgW s.cfgH g = true
  | .decf => ∃ m g, s.stream = some m ∧ 0 < s.cfgW ∧ 0 < s.cfgH ∧ frameAllowed s.config s.cfgW s.cfgH = true ∧
      m.length = frameBytes s.cfgW s.cfgH ∧ decodeFrame m s.cfgW s.cfgH = some g

/-- The state with the outputs of an operation that succeeds written (R24). -/
def writeOutputs (s : State) : Instr → State
  | .q565 r g b => s.setQOut (quantize { r := r, g := g, b := b })
  | .d565 w => s.setRgbOut (reconstruct w)
  | .pk16 w => s.setBytesOut (lowByte w) (highByte w)
  | .upk16 b0 b1 => s.setWOut (joinBytes b0 b1)
  | .encf => s.setStream (s.src.map encodeFrame)
  | .decf => s.setDst (s.stream.bind fun m => decodeFrame m s.cfgW s.cfgH)

@[simp] theorem writeOutputs_fault (s : State) (i : Instr) : (writeOutputs s i).fault = s.fault := by
  cases i <;> rfl

@[simp] theorem writeOutputs_running (s : State) (i : Instr) : (writeOutputs s i).Running ↔ s.Running := by
  cases i <;> rfl

/-- An operation answers a next state in a running run only (R129, R130). -/
theorem running_of_exec {i : Instr} {s t : State} (h : exec i s = .next t) : s.Running := by
  cases i with
  | q565 r g b => exact (execQ565_eq_next.mp h).1
  | d565 w => exact (execD565_eq_next.mp h).1
  | pk16 w => exact (execPk16_eq_next.mp h).1
  | upk16 b0 b1 => exact (execUpk16_eq_next.mp h).1
  | encf => exact (execEncf_cases h).1
  | decf => exact (execDecf_cases h).1

/-- ENCF without a fault: the encoded frame is the only case of `execEncf_cases` that leaves FAULT none. -/
theorem execEncf_succeeds_iff {s t : State} :
    (execEncf s = .next t ∧ t.fault = none) ↔ s.Running ∧ succeedsOn s .encf ∧ writeOutputs s .encf = t := by
  constructor
  · rintro ⟨h, hfault⟩
    obtain ⟨hr, ⟨-, rfl⟩ | ⟨g, hs, ⟨-, rfl⟩ | ⟨hw, hh, ha, ⟨hg, rfl⟩ | ⟨-, rfl⟩⟩⟩⟩ := execEncf_cases h
    case inr.inr.inl => exact ⟨hr, ⟨g, hs, hw, hh, ha, hg⟩, by simp [writeOutputs, hs]⟩
    all_goals simp at hfault
  · rintro ⟨hr, ⟨g, hs, hw, hh, ha, hg⟩, rfl⟩
    exact ⟨by simp [execEncf_success hr hs hw hh ha hg, writeOutputs, hs], by simp [hr.1]⟩

/-- DECF without a fault: the decoded frame is the only case of `execDecf_cases` that leaves FAULT none. -/
theorem execDecf_succeeds_iff {s t : State} :
    (execDecf s = .next t ∧ t.fault = none) ↔ s.Running ∧ succeedsOn s .decf ∧ writeOutputs s .decf = t := by
  constructor
  · rintro ⟨h, hfault⟩
    obtain ⟨hr, ⟨-, rfl⟩ | ⟨m, hs, ⟨-, rfl⟩ | ⟨hw, hh, ha, ⟨hl, g, hg, rfl⟩ | ⟨-, rfl⟩⟩⟩⟩ := execDecf_cases h
    case inr.inr.inl => exact ⟨hr, ⟨m, g, hs, hw, hh, ha, hl, hg⟩, by simp [writeOutputs, hs, hg]⟩
    all_goals simp at hfault
  · rintro ⟨hr, ⟨m, g, hs, hw, hh, ha, hl, hg⟩, rfl⟩
    exact ⟨by simp [execDecf_success hr hs hw hh ha hl hg, writeOutputs, hs, hg], by simp [hr.1]⟩

/-- When an operation succeeds, and what it then answers. -/
theorem exec_succeeds_iff {i : Instr} {s t : State} :
    (exec i s = .next t ∧ t.fault = none) ↔ s.Running ∧ succeedsOn s i ∧ writeOutputs s i = t := by
  have hpixel (hexec : exec i s = .next t ↔ s.Running ∧ writeOutputs s i = t) (hneeds : succeedsOn s i) :
      (exec i s = .next t ∧ t.fault = none) ↔ s.Running ∧ succeedsOn s i ∧ writeOutputs s i = t := by
    rw [hexec]
    constructor
    · rintro ⟨⟨hr, ht⟩, -⟩
      exact ⟨hr, hneeds, ht⟩
    · rintro ⟨hr, -, rfl⟩
      exact ⟨⟨hr, rfl⟩, by simp [hr.1]⟩
  cases i with
  | q565 r g b => exact hpixel execQ565_eq_next trivial
  | d565 w => exact hpixel execD565_eq_next trivial
  | pk16 w => exact hpixel execPk16_eq_next trivial
  | upk16 b0 b1 => exact hpixel execUpk16_eq_next trivial
  | encf => exact execEncf_succeeds_iff
  | decf => exact execDecf_succeeds_iff

/-- Two operations in a row reach a state without FAULT exactly when both succeed. -/
theorem exec_exec_succeeds_iff {i j : Instr} {s u : State} (hu : u.fault = none) :
    (∃ t, exec i s = .next t ∧ exec j t = .next u) ↔
      s.Running ∧ succeedsOn s i ∧ succeedsOn (writeOutputs s i) j ∧ writeOutputs (writeOutputs s i) j = u := by
  constructor
  · rintro ⟨t, hi, hj⟩
    obtain ⟨hrun, hsi, rfl⟩ := exec_succeeds_iff.mp ⟨hi, (running_of_exec hj).1⟩
    obtain ⟨-, hsj, hresult⟩ := exec_succeeds_iff.mp ⟨hj, hu⟩
    exact ⟨hrun, hsi, hsj, hresult⟩
  · rintro ⟨hrun, hsi, hsj, hresult⟩
    exact ⟨writeOutputs s i, (exec_succeeds_iff.mpr ⟨hrun, hsi, rfl⟩).1,
      (exec_succeeds_iff.mpr ⟨(writeOutputs_running s i).mpr hrun, hsj, hresult⟩).1⟩

/-! ## Commutation with a per-pixel operation -/

theorem succeedsOn_pixel {i : Instr} (hencf : i ≠ .encf) (hdecf : i ≠ .decf) (s : State) : succeedsOn s i := by
  cases i with
  | encf => exact absurd rfl hencf
  | decf => exact absurd rfl hdecf
  | _ => trivial

/-- No operation reads an output port, so a per-pixel operation does not change what another one needs (R37). -/
theorem succeedsOn_writeOutputs_pixel {i : Instr} (hencf : i ≠ .encf) (hdecf : i ≠ .decf) (s : State) (j : Instr) :
    succeedsOn (writeOutputs s i) j ↔ succeedsOn s j := by
  cases i with
  | encf => exact absurd rfl hencf
  | decf => exact absurd rfl hdecf
  | _ => cases j <;> rfl

/-- Different units write different elements, and a per-pixel operation writes none that another one reads (R37). -/
theorem writeOutputs_comm_pixel {i j : Instr} (hencf : i ≠ .encf) (hdecf : i ≠ .decf) (hunits : unitOf i ≠ unitOf j)
    (s : State) : writeOutputs (writeOutputs s i) j = writeOutputs (writeOutputs s j) i := by
  cases i with
  | q565 r g b =>
    cases j with
    | q565 => exact absurd rfl hunits
    | _ => rfl
  | d565 w =>
    cases j with
    | d565 => exact absurd rfl hunits
    | _ => rfl
  | pk16 w =>
    cases j with
    | pk16 => exact absurd rfl hunits
    | _ => rfl
  | upk16 b0 b1 =>
    cases j with
    | upk16 => exact absurd rfl hunits
    | _ => rfl
  | encf => exact absurd rfl hencf
  | decf => exact absurd rfl hdecf

/-- Settles O42: in either order both operations succeed under the same condition and write the same outputs. -/
theorem pixelOperationsCommute : Obligations.PixelOperationsCommute := by
  intro i j s u hencf hdecf hunits hu
  rw [exec_exec_succeeds_iff hu, exec_exec_succeeds_iff hu, succeedsOn_writeOutputs_pixel hencf hdecf,
    writeOutputs_comm_pixel hencf hdecf hunits]
  have hi : succeedsOn s i := succeedsOn_pixel hencf hdecf s
  have hi' : succeedsOn (writeOutputs s j) i := succeedsOn_pixel hencf hdecf _
  simp [hi, hi']

end Sys2Proof.Machine
end

section
/-! PROOFS. The invariant of the state (spec/20_memory.md R40, spec/10_state.md R26 and R28): what keeps it, update by update
and action by action, and that every step does. -/

namespace Sys2Proof.Machine

/-! ## Zero-filled frames -/

/-- Reconstruction fills the low-order bits with zeros (R102). -/
theorem zeroFilled_reconstruct (w : Word565) : zeroFilled (reconstruct w) = true := by
  have hlow3 (f : BitVec 5) : (f ++ 0#3) &&& 0x07#8 = 0#8 := by decide +revert
  have hlow2 (f : BitVec 6) : (f ++ 0#2) &&& 0x03#8 = 0#8 := by decide +revert
  simp [reconstruct_eq_slices, zeroFilled, hlow3, hlow2]

/-- A pixel in a row of a grid is the pixel at some column and row (R40). -/
theorem exists_pixelAt_of_mem {g : Grid} {row : List Pixel} {p : Pixel} (hrow : row ∈ g) (hp : p ∈ row) :
    ∃ x < row.length, ∃ y < g.length, pixelAt g x y = some p := by
  obtain ⟨y, hy, rfl⟩ := List.getElem_of_mem hrow
  obtain ⟨x, hx, rfl⟩ := List.getElem_of_mem hp
  exact ⟨x, hx, y, hy, by simp [pixelAt, hx, hy]⟩

/-- Every pixel of a decoded frame is the reconstruction of a word, hence zero-filled (R106). -/
theorem zeroFilled_of_decodeFrame {m : Memory} {w h : Nat} {g : Grid} (hdec : decodeFrame m w h = some g) :
    ∀ row ∈ g, ∀ p ∈ row, zeroFilled p = true := by
  intro row hrow p hp
  obtain ⟨hshape, hpixels⟩ := (decodeFrame_eq_some m w h g).mp hdec
  obtain ⟨hheight, hwidth⟩ := (hasShape_iff w h g).mp hshape
  obtain ⟨x, hx, y, hy, hat⟩ := exists_pixelAt_of_mem hrow hp
  have hword := (hpixels x (hwidth row hrow ▸ hx) y (hheight ▸ hy)).trans hat
  obtain ⟨v, -, rfl⟩ := Option.map_eq_some_iff.mp hword
  exact zeroFilled_reconstruct v

/-- A decoded frame has a shape, hence is rectangular (R28). -/
theorem rectangular_of_decodeFrame {m : Memory} {w h : Nat} {g : Grid} (hdec : decodeFrame m w h = some g) :
    rectangular g = true := by
  obtain ⟨hshape, -⟩ := (decodeFrame_eq_some m w h g).mp hdec
  obtain ⟨-, hwidth⟩ := (hasShape_iff w h g).mp hshape
  exact rectangular_of_shape hwidth

/-! ## Dimensions that fit every implementation -/

/-- DIM_BITS is at least 9, so the registers hold every value below 512, the reset values among them (R7). -/
theorem dimensionFits_of_lt_512 {cfg : Config} (hbits : ∀ n, cfg.dimBits = some n → 9 ≤ n) {d : Nat} (hd : d < 512) :
    dimensionFits cfg d = true := by
  unfold dimensionFits
  cases hc : cfg.dimBits with
  | none => rfl
  | some n =>
    have hpow : 2 ^ 9 ≤ 2 ^ n := Nat.pow_le_pow_right (by decide) (hbits n hc)
    simp only [decide_eq_true_eq]
    omega

/-! ## What keeps the invariant: the named updates -/

namespace State.Inv

variable {s : State}

theorem setInputs (hi : s.Inv) (rest : List HostInput) : (s.setInputs rest).Inv := { hi with }

theorem setQOut (hi : s.Inv) (v : Word565) : (s.setQOut v).Inv := { hi with }

theorem setRgbOut (hi : s.Inv) (p : Pixel) : (s.setRgbOut p).Inv := { hi with }

theorem setBytesOut (hi : s.Inv) (b0 b1 : Byte) : (s.setBytesOut b0 b1).Inv := { hi with }

theorem setWOut (hi : s.Inv) (v : Word565) : (s.setWOut v).Inv := { hi with }

theorem setCfg (hi : s.Inv) {w h : Nat} (hw : dimensionFits s.config w = true) (hh : dimensionFits s.config h = true) :
    (s.setCfg w h).Inv := { hi with cfgFits := ⟨hw, hh⟩ }

theorem setSrc (hi : s.Inv) {src : Option Grid} (hrect : ∀ g, src = some g → rectangular g = true) :
    (s.setSrc src).Inv := { hi with srcRectangular := hrect }

theorem setStream (hi : s.Inv) {stream : Option Memory} (hwf : ∀ m, stream = some m → Memory.wf m = true) :
    (s.setStream stream).Inv := { hi with streamWf := hwf }

theorem setDst (hi : s.Inv) {dst : Option Grid} (hrect : ∀ g, dst = some g → rectangular g = true)
    (hzero : ∀ g, dst = some g → ∀ row ∈ g, ∀ p ∈ row, zeroFilled p = true) : (s.setDst dst).Inv :=
  { hi with dstRectangular := hrect, dstZeroFilled := hzero }

theorem setRefused (hi : s.Inv) (hfault : s.fault = none) : s.setRefused.Inv := { hi with oneEnd := .inl hfault }

theorem setFault (hi : s.Inv) {r : FaultRecord} (hrefused : s.refused = false) (htrue : r.truthful) :
    (s.setFault r).Inv :=
  { hi with
    oneEnd := .inr hrefused
    faultTruthful := fun _ hr => Option.some.inj hr ▸ htrue }

/-- Taking a fault only makes an output memory absent, so the record has to be true (R128). -/
theorem raiseFault (hi : s.Inv) (u : FrameUnit) {r : FaultRecord} (hrun : s.Running) (htrue : r.truthful) :
    (raiseFault u r s).Inv := by
  have hfault : (s.setFault r).Inv := hi.setFault hrun.2 htrue
  cases u with
  | encoder => exact hfault.setStream nofun
  | decoder => exact hfault.setDst nofun nofun

/-- A reset gives the reset state, whose dimensions fit registers of every width (R33, R140). -/
theorem reset (hi : s.Inv) (rest : List HostInput) :
    State.Inv { State.reset with config := s.config, inputs := rest } :=
  { resetMeetsInvariant with
    cfgFits := ⟨dimensionFits_of_lt_512 hi.dimBitsEnough (by decide : 320 < 512),
      dimensionFits_of_lt_512 hi.dimBitsEnough (by decide : 240 < 512)⟩
    dimBitsEnough := hi.dimBitsEnough }

/-! ## What keeps the invariant: the operations and the step -/

variable {t : State}

/-- ENCF writes a stream made of bytes, and its GRID_MISMATCH is about a rectangular source. -/
theorem execEncf (hi : s.Inv) (h : execEncf s = .next t) : t.Inv := by
  obtain ⟨hrun, ⟨-, rfl⟩ | ⟨g, hsrc, ⟨hdim, rfl⟩ | ⟨-, hh, -, ⟨-, rfl⟩ | ⟨hshape, rfl⟩⟩⟩⟩ := execEncf_cases h
  · exact hi.raiseFault .encoder hrun trivial
  · exact hi.raiseFault .encoder hrun hdim
  · exact hi.setStream fun m hm => Option.some.inj hm ▸ Memory.wf_ofBytes (gridBytes g)
  · have hmismatch : ¬ (gridWidth g = s.cfgW ∧ gridHeight g = s.cfgH) := by
      rw [← hasShape_of_rectangular (hi.srcRectangular g hsrc) hh, hshape]
      simp
    exact hi.raiseFault .encoder hrun hmismatch

/-- DECF writes a decoded frame, and its SIZE_MISMATCH is about two lengths that differ. -/
theorem execDecf (hi : s.Inv) (h : execDecf s = .next t) : t.Inv := by
  obtain ⟨hrun, ⟨-, rfl⟩ | ⟨m, -, ⟨hdim, rfl⟩ | ⟨-, -, -, ⟨-, g, hdec, rfl⟩ | ⟨hlen, rfl⟩⟩⟩⟩ := execDecf_cases h
  · exact hi.raiseFault .decoder hrun trivial
  · exact hi.raiseFault .decoder hrun hdim
  · exact hi.setDst (fun d hd => Option.some.inj hd ▸ rectangular_of_decodeFrame hdec)
      (fun d hd => Option.some.inj hd ▸ zeroFilled_of_decodeFrame hdec)
  · exact hi.raiseFault .decoder hrun hlen

/-- Every operation keeps the invariant: a per-pixel operation drives ports, of which the invariant does not speak. -/
theorem exec (hi : s.Inv) {i : Instr} (h : exec i s = .next t) : t.Inv := by
  cases i with
  | q565 r g b => obtain ⟨-, rfl⟩ := execQ565_eq_next.mp h; exact hi.setQOut _
  | d565 w => obtain ⟨-, rfl⟩ := execD565_eq_next.mp h; exact hi.setRgbOut _
  | pk16 w => obtain ⟨-, rfl⟩ := execPk16_eq_next.mp h; exact hi.setBytesOut _ _
  | upk16 b0 b1 => obtain ⟨-, rfl⟩ := execUpk16_eq_next.mp h; exact hi.setWOut _
  | encf => exact hi.execEncf h
  | decf => exact hi.execDecf h

end State.Inv

/-- A stream the host supplies is made of bytes, hence in canonical form (R27, R40). -/
theorem wf_of_map_ofBytes {bs : Option (List Byte)} {m : Memory} (h : bs.map Memory.ofBytes = some m) :
    Memory.wf m = true := by
  obtain ⟨l, -, rfl⟩ := Option.map_eq_some_iff.mp h
  exact Memory.wf_ofBytes l

/-- Settles O46: by what the step performs, on the state whose plan has lost its first action. -/
theorem stepKeepsInvariant : Obligations.StepKeepsInvariant := by
  intro s t hi h
  obtain ⟨a, rest, -, hcases⟩ := step_cases h
  have hi' : (s.setInputs rest).Inv := hi.setInputs rest
  obtain ⟨c, -, ⟨i, -, hexec⟩ | ⟨-, hrun, rfl⟩⟩ | ⟨-, rfl⟩ | ⟨w, hgt, -, hw, hh, rfl⟩ | ⟨g, -, hrect, rfl⟩ |
    ⟨bs, -, rfl⟩ := hcases
  · exact hi'.exec hexec
  · exact hi'.setRefused hrun.1
  · exact hi.reset rest
  · exact hi'.setCfg hw hh
  · exact hi'.setSrc hrect
  · exact hi'.setStream fun m => wf_of_map_ofBytes

end Sys2Proof.Machine
end

section
/-! PROOFS. The memory model (spec/20_memory.md R42-R44, R52, R53): the addressing of a frame and of its words, the order of
the host's actions, and that an operation's result is determined by its inputs. -/

namespace Sys2Proof.Machine

/-! ## The order of the host's actions -/

/-- No operation touches the host's plan. -/
theorem exec_inputs {i : Instr} {s t : State} (h : exec i s = .next t) : t.inputs = s.inputs := by
  obtain ⟨⟨-, hinputs, -⟩, -⟩ := operationsWriteOnlyTheirOwn i s t h
  exact hinputs

/-- Settles O8: the step takes the first action, and what it then performs leaves the rest of the plan as it is. -/
theorem stepsTakeActionsInOrder : Obligations.StepsTakeActionsInOrder := by
  intro s t h
  obtain ⟨a, rest, hin, hcases⟩ := step_cases h
  have hrest : t.inputs = rest := by
    obtain ⟨c, -, ⟨i, -, hexec⟩ | ⟨-, -, rfl⟩⟩ | ⟨-, rfl⟩ | ⟨w, hgt, -, -, -, rfl⟩ | ⟨g, -, -, rfl⟩ | ⟨bs, -, rfl⟩ := hcases
    case inl.inl => simpa using exec_inputs hexec
    all_goals simp
  exact ⟨a, by rw [hin, hrest]⟩

/-! ## Addressing -/

/-- The word index of a pixel of a frame: it lies in the frame, and its column and row are the pixel's (R42). -/
theorem wordIndex_of_lt {w h x y : Nat} (hx : x < w) (hy : y < h) :
    wordIndex w x y < w * h ∧ wordColumn w (wordIndex w x y) = x ∧ wordRow w (wordIndex w x y) = y := by
  have hw : 0 < w := by omega
  simp only [wordIndex, wordColumn, wordRow]
  refine ⟨?_, by rw [Nat.mul_add_mod', Nat.mod_eq_of_lt hx], ?_⟩
  · calc y * w + x < y * w + w := by omega
      _ = w * (y + 1) := by ring
      _ ≤ w * h := Nat.mul_le_mul_left w hy
  · rw [Nat.add_comm, Nat.add_mul_div_right _ _ hw, Nat.div_eq_of_lt hx, Nat.zero_add]

/-- The pixel of a word index of a frame: it lies in the frame, and the index is its word index (R42). -/
theorem wordColumn_wordRow_of_lt {w h i : Nat} (hi : i < w * h) :
    wordColumn w i < w ∧ wordRow w i < h ∧ wordIndex w (wordColumn w i) (wordRow w i) = i := by
  have hw : 0 < w := Nat.pos_of_mul_pos_right (by omega : 0 < w * h)
  exact ⟨Nat.mod_lt i hw, Nat.div_lt_of_lt_mul hi, Nat.div_add_mod' i w⟩

/-- Settles O29: division with remainder by the width is the inverse. -/
theorem wordIndexIsABijection : Obligations.WordIndexIsABijection :=
  ⟨fun _ _ _ _ => wordIndex_of_lt, fun _ _ _ => wordColumn_wordRow_of_lt, rfl⟩

/-! ## Byte order -/

/-- Two bytes join to a word exactly when they are its low and its high byte (R44). -/
theorem joinBytes_eq_iff (b0 b1 : Byte) (w : Word565) : joinBytes b0 b1 = w ↔ b0 = lowByte w ∧ b1 = highByte w := by
  constructor
  · rintro rfl
    exact ⟨(lowByte_joinBytes b0 b1).symm, (highByte_joinBytes b0 b1).symm⟩
  · rintro ⟨rfl, rfl⟩
    exact joinBytes_bytes w

/-- Settles O30: the word is the join of the two bytes read, and the join determines them. -/
theorem streamWordsAreLittleEndian : Obligations.StreamWordsAreLittleEndian := by
  intro m i w
  change _ ↔ Memory.read m (lowOffset i) = some (lowByte w) ∧ Memory.read m (highOffset i) = some (highByte w)
  simp only [readWord_eq_some, joinBytes_eq_iff]
  constructor
  · rintro ⟨b0, b1, h0, h1, rfl, rfl⟩
    exact ⟨h0, h1⟩
  · rintro ⟨h0, h1⟩
    exact ⟨_, _, h0, h1, rfl, rfl⟩

/-! ## Repeating an operation -/

/-- An operation reads none of the elements it writes (R37), so its own result does not change what it needs. -/
theorem succeedsOn_writeOutputs_self (s : State) (i : Instr) : succeedsOn (writeOutputs s i) i ↔ succeedsOn s i := by
  cases i <;> rfl

/-- An operation reads none of the elements it writes (R37), so it writes the same outputs again. -/
theorem writeOutputs_idem (s : State) (i : Instr) : writeOutputs (writeOutputs s i) i = writeOutputs s i := by
  cases i <;> rfl

/-- Settles O41: the operation succeeds again, since it needs what it needed before, and writes what it wrote before. -/
theorem repeatingAnOperationChangesNothing : Obligations.RepeatingAnOperationChangesNothing := by
  intro i s t h hfault
  obtain ⟨hrun, hneeds, rfl⟩ := exec_succeeds_iff.mp ⟨h, hfault⟩
  have hagain := exec_succeeds_iff.mpr ⟨(writeOutputs_running s i).mpr hrun,
    (succeedsOn_writeOutputs_self s i).mpr hneeds, writeOutputs_idem s i⟩
  exact hagain.1

/-! ## Equal inputs, equal results -/

/-- The two outcomes stop alike, or answer next states that are related. -/
def SameOutcome (R : State → State → Prop) (o o' : Host.Outcome State Fault Refusal) : Prop :=
  (∀ f, o = .fault f → o' = .fault f) ∧ (∀ t, o = .next t → ∃ t', o' = .next t' ∧ R t t')

theorem sameOutcome_next {R : State → State → Prop} {t t' : State} (h : R t t') :
    SameOutcome R (.next t) (.next t') :=
  ⟨nofun, fun _ hu => ⟨t', rfl, Host.Outcome.next.inj hu ▸ h⟩⟩

theorem sameOutcome_fault (R : State → State → Prop) (f : Fault) : SameOutcome R (.fault f) (.fault f) :=
  ⟨fun _ hstop => hstop, fun _ hnext => by cases hnext⟩

/-- The checks of a frame operation read the dimensions and MAX_PIXELS, nothing else. -/
theorem sameOutcome_frameChecks {R : State → State → Prop} {u : FrameUnit} {s s' : State}
    {k k' : Host.Outcome State Fault Refusal} (hconfig : s.config = s'.config) (hw : s.cfgW = s'.cfgW)
    (hh : s.cfgH = s'.cfgH) (hfault : ∀ r, R (raiseFault u r s) (raiseFault u r s')) (hk : SameOutcome R k k') :
    SameOutcome R (frameChecks u s k) (frameChecks u s' k') := by
  unfold frameChecks
  rw [← hconfig, ← hw, ← hh]
  split
  · exact sameOutcome_next (hfault _)
  split
  · exact hk
  · exact sameOutcome_fault R _

/-- The two states agree on FAULT and on what the operation writes (R24, R37). -/
def agreeOnOutputs (t t' : State) : Instr → Prop
  | .q565 _ _ _ => t.fault = t'.fault ∧ t.qOut = t'.qOut
  | .d565 _ => t.fault = t'.fault ∧ t.rOut = t'.rOut ∧ t.gOut = t'.gOut ∧ t.bOut = t'.bOut
  | .pk16 _ => t.fault = t'.fault ∧ t.b0Out = t'.b0Out ∧ t.b1Out = t'.b1Out
  | .upk16 _ _ => t.fault = t'.fault ∧ t.wOut = t'.wOut
  | .encf => t.fault = t'.fault ∧ t.stream = t'.stream
  | .decf => t.fault = t'.fault ∧ t.dst = t'.dst

section
variable {s s' : State} (hrun : s.Running) (hrun' : s'.Running)
include hrun hrun'

theorem fault_eq_of_running : s.fault = s'.fault := hrun.1.trans hrun'.1.symm

/-- ENCF reads CFG_W, CFG_H and SRC (R87). -/
theorem sameOutcome_execEncf (hconfig : s.config = s'.config) (hw : s.cfgW = s'.cfgW) (hh : s.cfgH = s'.cfgH)
    (hsrc : s.src = s'.src) : SameOutcome (agreeOnOutputs · · .encf) (execEncf s) (execEncf s') := by
  rw [execEncf, execEncf, whileRunning_of_running hrun, whileRunning_of_running hrun', ← hsrc]
  cases s.src with
  | none => exact sameOutcome_next ⟨rfl, rfl⟩
  | some g =>
    refine sameOutcome_frameChecks hconfig hw hh (fun _ => ⟨rfl, rfl⟩) ?_
    rw [← hw, ← hh]
    split
    · exact sameOutcome_next ⟨fault_eq_of_running hrun hrun', rfl⟩
    · exact sameOutcome_next ⟨rfl, rfl⟩

/-- DECF reads CFG_W, CFG_H and STREAM (R110). -/
theorem sameOutcome_execDecf (hconfig : s.config = s'.config) (hw : s.cfgW = s'.cfgW) (hh : s.cfgH = s'.cfgH)
    (hstream : s.stream = s'.stream) : SameOutcome (agreeOnOutputs · · .decf) (execDecf s) (execDecf s') := by
  rw [execDecf, execDecf, whileRunning_of_running hrun, whileRunning_of_running hrun', ← hstream]
  cases s.stream with
  | none => exact sameOutcome_next ⟨rfl, rfl⟩
  | some m =>
    refine sameOutcome_frameChecks hconfig hw hh (fun _ => ⟨rfl, rfl⟩) ?_
    rw [← hw, ← hh]
    split
    · cases decodeFrame m s.cfgW s.cfgH with
      | none => exact sameOutcome_fault _ _
      | some g => exact sameOutcome_next ⟨fault_eq_of_running hrun hrun', rfl⟩
    · exact sameOutcome_next ⟨rfl, rfl⟩

/-- On states that agree on what an operation reads, it stops alike or answers states that agree on what it writes. -/
theorem sameOutcome_exec {i : Instr} (hconfig : s.config = s'.config)
    (hencf : i = .encf → s.cfgW = s'.cfgW ∧ s.cfgH = s'.cfgH ∧ s.src = s'.src)
    (hdecf : i = .decf → s.cfgW = s'.cfgW ∧ s.cfgH = s'.cfgH ∧ s.stream = s'.stream) :
    SameOutcome (agreeOnOutputs · · i) (exec i s) (exec i s') := by
  have hfault : s.fault = s'.fault := fault_eq_of_running hrun hrun'
  have hpixel {t t' : State} (h : agreeOnOutputs t t' i) :
      SameOutcome (agreeOnOutputs · · i) (whileRunning s (.next t)) (whileRunning s' (.next t')) := by
    rw [whileRunning_of_running hrun, whileRunning_of_running hrun']
    exact sameOutcome_next h
  cases i with
  | q565 r g b => exact hpixel ⟨hfault, rfl⟩
  | d565 w => exact hpixel ⟨hfault, rfl, rfl, rfl⟩
  | pk16 w => exact hpixel ⟨hfault, rfl, rfl⟩
  | upk16 b0 b1 => exact hpixel ⟨hfault, rfl⟩
  | encf =>
    obtain ⟨hw, hh, hsrc⟩ := hencf rfl
    exact sameOutcome_execEncf hrun hrun' hconfig hw hh hsrc
  | decf =>
    obtain ⟨hw, hh, hstream⟩ := hdecf rfl
    exact sameOutcome_execDecf hrun hrun' hconfig hw hh hstream

end

/-- Settles O50: the two runs of the operation have the same outcome, and what they agree on is what the operation writes. -/
theorem sameInputsGiveTheSameResult : Obligations.SameInputsGiveTheSameResult := by
  intro i s s' hrun hrun' hconfig hencf hdecf
  obtain ⟨hstop, hnext⟩ := sameOutcome_exec hrun hrun' hconfig hencf hdecf
  refine ⟨hstop, fun t ht => ?_⟩
  obtain ⟨t', ht', hagree⟩ := hnext t ht
  refine ⟨t', ht', ?_⟩
  cases i <;> simpa [agreeOnOutputs] using hagree

end Sys2Proof.Machine
end

section
/-! PROOFS. The command word (spec/30_encoding.md R66-R68, R73): its fields put together, the rows of the opcode table, and
that decoding and encoding invert each other. -/

namespace Sys2Proof

/-! ## A command word and its fields -/

theorem append_eq_append_iff {m n : Nat} {a a' : BitVec m} {b b' : BitVec n} :
    a ++ b = a' ++ b' ↔ a = a' ∧ b = b' := by
  constructor
  · intro h
    have hleft := congrArg (BitVec.extractLsb' n m) h
    have hright := congrArg (BitVec.extractLsb' 0 n) h
    rw [BitVec.extractLsb'_append_eq_left, BitVec.extractLsb'_append_eq_left] at hleft
    rw [BitVec.extractLsb'_append_eq_right, BitVec.extractLsb'_append_eq_right] at hright
    exact ⟨hleft, hright⟩
  · rintro ⟨rfl, rfl⟩
    rfl

theorem opField_append_zeroField (c : Command) : opField c ++ zeroField c = c.extractLsb' 24 8 :=
  BitVec.extractLsb'_append_extractLsb'_eq_extractLsb' rfl

theorem byte1Field_append_byte0Field (c : Command) : byte1Field c ++ byte0Field c = wordField c :=
  BitVec.extractLsb'_append_extractLsb'_eq_extractLsb' rfl

theorem highByte_append_byte2Field (c : Command) : c.extractLsb' 24 8 ++ byte2Field c = c.extractLsb' 16 16 :=
  BitVec.extractLsb'_append_extractLsb'_eq_extractLsb' rfl

theorem highHalf_append_wordField (c : Command) : c.extractLsb' 16 16 ++ wordField c = c :=
  BitVec.extractLsb'_append_extractLsb'

theorem highByte_append_low24 (c : Command) : c.extractLsb' 24 8 ++ c.extractLsb' 0 24 = c :=
  BitVec.extractLsb'_append_extractLsb'

theorem highHalf_append_operandBytes (c : Command) : c.extractLsb' 16 16 ++ byte1Field c ++ byte0Field c = c := by
  have hbytes : c.extractLsb' 16 16 ++ byte1Field c = c.extractLsb' 8 24 :=
    BitVec.extractLsb'_append_extractLsb'_eq_extractLsb' rfl
  rw [hbytes]
  exact BitVec.extractLsb'_append_extractLsb'

/-- The operand bytes of a word written as four bytes. -/
theorem operandBytes_append (hi b2 b1 b0 : Byte) :
    byte2Field (hi ++ b2 ++ b1 ++ b0) = b2 ∧ byte1Field (hi ++ b2 ++ b1 ++ b0) = b1 ∧
      byte0Field (hi ++ b2 ++ b1 ++ b0) = b0 := by
  refine ⟨?_, ?_, BitVec.extractLsb'_append_eq_right⟩
  · rw [byte2Field, BitVec.extractLsb'_append_eq_of_le (by decide), BitVec.extractLsb'_append_eq_of_le (by decide)]
    exact BitVec.extractLsb'_append_eq_right
  · rw [byte1Field, BitVec.extractLsb'_append_eq_of_le (by decide)]
    exact BitVec.extractLsb'_append_eq_right

theorem wordField_append (hi w : BitVec 16) : wordField (hi ++ w) = w := BitVec.extractLsb'_append_eq_right

/-! ## The rows of the opcode table -/

/-- The mask and the match value of each row, in the table's order (R67). -/
def commandRows : List (Command × Command) :=
  [(0xFF000000#32, 0x00000000#32), (0xFFFF0000#32, 0x20000000#32), (0xFFFF0000#32, 0x40000000#32),
   (0xFFFF0000#32, 0x60000000#32), (0xFFFFFFFF#32, 0x80000000#32), (0xFFFFFFFF#32, 0xA0000000#32)]

/-- Two rows differ on a bit that both masks fix. -/
def Clash (row row' : Command × Command) : Prop := row.2 &&& row'.1 ≠ row'.2 &&& row.1

theorem commandRows_pairwise_clash : commandRows.Pairwise Clash := by
  unfold Clash
  decide

/-- A word that one row selects is selected by no row that clashes with it. -/
theorem selects_eq_false_of_clash {mask pattern mask' pattern' c : Command} (h : selects mask pattern c = true)
    (hclash : pattern &&& mask' ≠ pattern' &&& mask) : selects mask' pattern' c = false := by
  by_contra h'
  simp only [selects, beq_iff_eq, Bool.not_eq_false] at h h'
  apply hclash
  calc pattern &&& mask' = c &&& mask &&& mask' := by rw [h]
    _ = c &&& mask' &&& mask := by rw [BitVec.and_assoc, BitVec.and_comm mask, ← BitVec.and_assoc]
    _ = pattern' &&& mask := by rw [h']

/-- Of rows that clash, at most one selects a word. -/
theorem length_filter_selects_le_one {rows : List (Command × Command)} (hrows : rows.Pairwise Clash) (c : Command) :
    (rows.filter fun row => selects row.1 row.2 c).length ≤ 1 := by
  have hselected := hrows.filter fun row => selects row.1 row.2 c
  have hall : ∀ row ∈ rows.filter fun row => selects row.1 row.2 c, selects row.1 row.2 c = true :=
    fun row hrow => (List.mem_filter.mp hrow).2
  generalize rows.filter (fun row => selects row.1 row.2 c) = selected at hselected hall
  match selected with
  | [] => simp
  | [_] => simp
  | row :: row' :: _ =>
    have hclash : Clash row row' := List.rel_of_pairwise_cons hselected (by simp)
    have hfalse := selects_eq_false_of_clash (hall row (by simp)) hclash
    rw [hall row' (by simp)] at hfalse
    cases hfalse

section
variable {c : Command}

theorem decode_of_selects_q565 (h : selects 0xFF000000#32 0x00000000#32 c = true) :
    decode c = some (.q565 (byte2Field c) (byte1Field c) (byte0Field c)) := by
  simp [decode, h]

theorem decode_of_selects_d565 (h : selects 0xFFFF0000#32 0x20000000#32 c = true) :
    decode c = some (.d565 (wordField c)) := by
  simp (disch := decide) [decode, h, selects_eq_false_of_clash h]

theorem decode_of_selects_pk16 (h : selects 0xFFFF0000#32 0x40000000#32 c = true) :
    decode c = some (.pk16 (wordField c)) := by
  simp (disch := decide) [decode, h, selects_eq_false_of_clash h]

theorem decode_of_selects_upk16 (h : selects 0xFFFF0000#32 0x60000000#32 c = true) :
    decode c = some (.upk16 (byte0Field c) (byte1Field c)) := by
  simp (disch := decide) [decode, h, selects_eq_false_of_clash h]

theorem decode_of_selects_encf (h : selects 0xFFFFFFFF#32 0x80000000#32 c = true) : decode c = some .encf := by
  simp (disch := decide) [decode, h, selects_eq_false_of_clash h]

theorem decode_of_selects_decf (h : selects 0xFFFFFFFF#32 0xA0000000#32 c = true) : decode c = some .decf := by
  simp (disch := decide) [decode, h, selects_eq_false_of_clash h]

end

/-- A word is no command exactly when no row selects it. -/
theorem decode_eq_none_iff_rows (c : Command) :
    decode c = none ↔ ∀ row ∈ commandRows, ¬ selects row.1 row.2 c = true := by
  simp [decode, commandRows, ite_eq_iff]

/-! ## Decoding and encoding -/

/-- Settles O1: the encoded word selects its own row, and the operand fields of that row hold the operands. -/
theorem decodeInvertsEncode : Obligations.DecodeInvertsEncode := by
  intro i
  cases i with
  | q565 r g b =>
    obtain ⟨hr, hg, hb⟩ : byte2Field (encode (.q565 r g b)) = r ∧ byte1Field (encode (.q565 r g b)) = g ∧
      byte0Field (encode (.q565 r g b)) = b := operandBytes_append 0x00#8 r g b
    rw [decode_of_selects_q565 (Laws.SelectsOwnRow.q565 r g b), hr, hg, hb]
  | d565 w =>
    have hw : wordField (encode (.d565 w)) = w := wordField_append 0x2000#16 w
    rw [decode_of_selects_d565 (Laws.SelectsOwnRow.d565 w), hw]
  | pk16 w =>
    have hw : wordField (encode (.pk16 w)) = w := wordField_append 0x4000#16 w
    rw [decode_of_selects_pk16 (Laws.SelectsOwnRow.pk16 w), hw]
  | upk16 b0 b1 =>
    obtain ⟨-, hb1, hb0⟩ : _ ∧ byte1Field (encode (.upk16 b0 b1)) = b1 ∧ byte0Field (encode (.upk16 b0 b1)) = b0 :=
      operandBytes_append 0x60#8 0x00#8 b1 b0
    rw [decode_of_selects_upk16 (Laws.SelectsOwnRow.upk16 b0 b1), hb0, hb1]
  | encf => exact decode_of_selects_encf Laws.SelectsOwnRow.encf
  | decf => exact decode_of_selects_decf Laws.SelectsOwnRow.decf

/-- Settles O2: the row fixes the bits above the operand fields, and the fields are the rest of the word. -/
theorem encodeInvertsDecode : Obligations.EncodeInvertsDecode := by
  intro c i hi
  rcases decode_cases c with ⟨hrow, hdec⟩ | ⟨hrow, hdec⟩ | ⟨hrow, hdec⟩ | ⟨hrow, hdec⟩ | ⟨hrow, hdec⟩ | ⟨hrow, hdec⟩ |
    ⟨-, -, -, -, -, -, hdec⟩ <;> cases hdec.symm.trans hi
  · calc encode (.q565 (byte2Field c) (byte1Field c) (byte0Field c))
      _ = c.extractLsb' 24 8 ++ byte2Field c ++ byte1Field c ++ byte0Field c := by rw [hrow]; rfl
      _ = c := by rw [highByte_append_byte2Field, highHalf_append_operandBytes]
  · calc encode (.d565 (wordField c))
      _ = c.extractLsb' 16 16 ++ wordField c := by rw [hrow]; rfl
      _ = c := highHalf_append_wordField c
  · calc encode (.pk16 (wordField c))
      _ = c.extractLsb' 16 16 ++ wordField c := by rw [hrow]; rfl
      _ = c := highHalf_append_wordField c
  · calc encode (.upk16 (byte0Field c) (byte1Field c))
      _ = c.extractLsb' 16 16 ++ byte1Field c ++ byte0Field c := by rw [hrow]; rfl
      _ = c := highHalf_append_operandBytes c
  · exact hrow.symm
  · exact hrow.symm

/-- The operand field of UPK16, as a number, is the word its two bytes join to (R100). -/
theorem joinBytes_operandBytes (c : Command) : Machine.joinBytes (byte0Field c) (byte1Field c) = wordField c := by
  rw [Machine.joinBytes_eq_append, byte1Field_append_byte0Field]

/-- Settles O3: each row decodes to its mnemonic, and the rows clash pairwise. -/
theorem commandsSelectTheirRows : Obligations.CommandsSelectTheirRows := by
  intro c
  have hrow {mask pattern : Command} (h : c &&& mask = pattern) : selects mask pattern c = true := beq_iff_eq.mpr h
  refine ⟨fun h => decode_of_selects_q565 (hrow h), fun h => decode_of_selects_d565 (hrow h),
    fun h => decode_of_selects_pk16 (hrow h),
    fun h => ⟨decode_of_selects_upk16 (hrow h), joinBytes_operandBytes c⟩,
    fun h => decode_of_selects_encf (hrow h), fun h => decode_of_selects_decf (hrow h),
    length_filter_selects_le_one commandRows_pairwise_clash c, ?_⟩
  rw [decode_eq_none_iff_rows]
  exact List.filter_eq_nil_iff

/-! ## The words that have no meaning -/

/-- The rows of R67 in fields: each fixes the op code, the must-be-zero bits and its unused operand bits. -/
theorem decode_eq_none_iff_fields (c : Command) :
    decode c = none ↔
      ¬ (opField c = 0b000#3 ∧ zeroField c = 0b00000#5) ∧
      ¬ (opField c = 0b001#3 ∧ zeroField c = 0b00000#5 ∧ byte2Field c = 0x00#8) ∧
      ¬ (opField c = 0b010#3 ∧ zeroField c = 0b00000#5 ∧ byte2Field c = 0x00#8) ∧
      ¬ (opField c = 0b011#3 ∧ zeroField c = 0b00000#5 ∧ byte2Field c = 0x00#8) ∧
      ¬ (opField c = 0b100#3 ∧ zeroField c = 0b00000#5 ∧ c.extractLsb' 0 24 = 0x000000#24) ∧
      ¬ (opField c = 0b101#3 ∧ zeroField c = 0b00000#5 ∧ c.extractLsb' 0 24 = 0x000000#24) := by
  have hbyte (op : BitVec 3) : selects 0xFF000000#32 (op ++ 0b00000#5 ++ 0#24) c = true ↔
      opField c = op ∧ zeroField c = 0b00000#5 := by
    rw [selects_highByte, ← opField_append_zeroField, append_eq_append_iff]
  have hhalf (op : BitVec 3) : selects 0xFFFF0000#32 (op ++ 0b00000#5 ++ 0x00#8 ++ 0#16) c = true ↔
      opField c = op ∧ zeroField c = 0b00000#5 ∧ byte2Field c = 0x00#8 := by
    rw [selects_highHalf, ← highByte_append_byte2Field, ← opField_append_zeroField, append_eq_append_iff,
      append_eq_append_iff, and_assoc]
  have hword (op : BitVec 3) : selects 0xFFFFFFFF#32 (op ++ 0b00000#5 ++ 0x000000#24) c = true ↔
      opField c = op ∧ zeroField c = 0b00000#5 ∧ c.extractLsb' 0 24 = 0x000000#24 := by
    rw [selects_all]
    conv_lhs => lhs; rw [← highByte_append_low24 c]
    rw [← opField_append_zeroField, append_eq_append_iff, append_eq_append_iff, and_assoc]
  rw [decode_eq_none_iff_rows, ← hbyte, ← hhalf, ← hhalf, ← hhalf, ← hword, ← hword]
  simp only [commandRows, List.forall_mem_cons, List.not_mem_nil, false_imp_iff, implies_true, and_true]
  rfl

/-- The conditions of R68 under which a word is refused. -/
def refusedByR68 (c : Command) : Prop :=
  opField c = 0b110#3 ∨ opField c = 0b111#3 ∨ zeroField c ≠ 0b00000#5 ∨
    ((opField c = 0b001#3 ∨ opField c = 0b010#3 ∨ opField c = 0b011#3) ∧ byte2Field c ≠ 0x00#8) ∨
    ((opField c = 0b100#3 ∨ opField c = 0b101#3) ∧ c.extractLsb' 0 24 ≠ 0x000000#24)

theorem opCode_cases : ∀ op : BitVec 3, op = 0b000#3 ∨ op = 0b001#3 ∨ op = 0b010#3 ∨ op = 0b011#3 ∨ op = 0b100#3 ∨
    op = 0b101#3 ∨ op = 0b110#3 ∨ op = 0b111#3 := by decide

theorem refusedByR68_iff (c : Command) : refusedByR68 c ↔ decode c = none := by
  rw [decode_eq_none_iff_fields, refusedByR68]
  rcases opCode_cases (opField c) with h | h | h | h | h | h | h | h <;> simp [h, imp_iff_not_or]

end Sys2Proof
end

section
/-! PROOFS. Refusals: a command word with no meaning ends the run (spec/30_encoding.md R68, spec/60_exceptions.md R130), and
a source line whose numbers do not fit does not assemble (spec/30_encoding.md R69, R71). -/

namespace Sys2Proof.Machine

/-! ## Refused commands -/

/-- In a running state, the refusal of a word sets REFUSED (R68, R130). -/
theorem performCommand_of_decode_none {c : Command} (hdec : decode c = none) {s : State} (hrun : s.Running) :
    performCommand c s = .next s.setRefused := by
  simp [performCommand, hdec, refuseCommand, whileRunning_of_running hrun]

section
variable {s : State} (hfault : s.fault = none) (hrefused : s.refused = true)
include hfault hrefused

/-- Once REFUSED is true, no operation has a step (R130). -/
theorem exec_of_refused (i : Instr) : exec i s = .fault .runRefused := by
  cases i <;> exact whileRunning_refused hfault hrefused _

/-- Once REFUSED is true, no command has a step, whichever word it is (R130). -/
theorem performCommand_of_refused (c : Command) : performCommand c s = .fault .runRefused := by
  cases hdec : decode c with
  | none => simp [performCommand, hdec, refuseCommand, whileRunning_refused hfault hrefused]
  | some i => rw [performCommand_of_decode hdec, exec_of_refused hfault hrefused]

theorem step_command_of_refused {c : Command} {rest : List HostInput} (hin : s.inputs = .command c :: rest) :
    step s = .fault .runRefused := by
  calc step s = performCommand c (s.setInputs rest) := step_eq_performInput hin
    _ = .fault .runRefused := performCommand_of_refused (s := s.setInputs rest) hfault hrefused c

theorem runEnd_of_refused : runEnd s = some .refused := by
  simp [runEnd, hfault, hrefused]

end

/-- Settles O4: the words refused are those that no row of the table selects, a refusal sets REFUSED, and a state with
REFUSED set performs no command. -/
theorem refusedCommandsSetRefused : Obligations.RefusedCommandsSetRefused := by
  intro s c rest hrun hin
  refine ⟨refusedByR68_iff c, fun hdec => ⟨?_, fun c' rest' =>
    ⟨step_command_of_refused hrun.1 rfl rfl, runEnd_of_refused hrun.1 rfl⟩⟩⟩
  calc step s = performCommand c (s.setInputs rest) := step_eq_performInput hin
    _ = .next (s.setInputs rest).setRefused := performCommand_of_decode_none hdec hrun

/-! ## Source lines -/

/-- A number that fits a field is the value of the field. -/
theorem toNat_ofNat_of_lt {w n : Nat} (h : n < 2 ^ w) : (BitVec.ofNat w n).toNat = n := by
  rw [BitVec.toNat_ofNat, Nat.mod_eq_of_lt h]

theorem wellFormed_q565 (r g b : Nat) : (SourceLine.q565 r g b).wellFormed = true ↔ r < 256 ∧ g < 256 ∧ b < 256 := by
  simp [SourceLine.wellFormed, fitsByte, and_assoc]

theorem wellFormed_d565 (w : Nat) : (SourceLine.d565 w).wellFormed = true ↔ w < 65536 := by
  simp [SourceLine.wellFormed, fitsWord]

theorem wellFormed_pk16 (w : Nat) : (SourceLine.pk16 w).wellFormed = true ↔ w < 65536 := by
  simp [SourceLine.wellFormed, fitsWord]

theorem wellFormed_upk16 (b0 b1 : Nat) : (SourceLine.upk16 b0 b1).wellFormed = true ↔ b0 < 256 ∧ b1 < 256 := by
  simp [SourceLine.wellFormed, fitsByte]

theorem assembleLine_of_wellFormed {l : SourceLine} (h : l.wellFormed = true) : assembleLine l = some (lineAction l) :=
  assembleLine_eq_some.mpr ⟨h, rfl⟩

/-- Settles O6: a line is refused unless every operand fits its field, and the command of a line that fits decodes to its
operands, as decoding inverts encoding. -/
theorem outOfRangeOperandsAreRefused : Obligations.OutOfRangeOperandsAreRefused := by
  refine ⟨fun r g b => ?q565, fun w => ⟨?d565, ?pk16, ?words⟩, fun b0 b1 => ?upk16⟩
  case q565 =>
    rw [assembleLine_eq_none, wellFormed_q565]
    refine ⟨fun ⟨hr, hg, hb⟩ => ?_, id⟩
    exact ⟨_, _, _, _, assembleLine_of_wellFormed ((wellFormed_q565 r g b).mpr ⟨hr, hg, hb⟩), decodeInvertsEncode _,
      toNat_ofNat_of_lt hr, toNat_ofNat_of_lt hg, toNat_ofNat_of_lt hb⟩
  case d565 =>
    intro hw
    exact ⟨_, _, assembleLine_of_wellFormed ((wellFormed_d565 w).mpr hw), decodeInvertsEncode _,
      toNat_ofNat_of_lt hw⟩
  case pk16 =>
    intro hw
    exact ⟨_, _, assembleLine_of_wellFormed ((wellFormed_pk16 w).mpr hw), decodeInvertsEncode _,
      toNat_ofNat_of_lt hw⟩
  case words =>
    rw [assembleLine_eq_none, assembleLine_eq_none, wellFormed_d565, wellFormed_pk16]
    exact fun hwide => ⟨hwide, hwide⟩
  case upk16 =>
    rw [assembleLine_eq_none, wellFormed_upk16]
    refine ⟨fun ⟨h0, h1⟩ => ?_, id⟩
    exact ⟨_, _, _, assembleLine_of_wellFormed ((wellFormed_upk16 b0 b1).mpr ⟨h0, h1⟩), decodeInvertsEncode _,
      toNat_ofNat_of_lt h0, toNat_ofNat_of_lt h1⟩

/-- Settles O51: a directive is refused unless its numbers fit and its grid is rectangular, and numbers that fit are taken
exactly. -/
theorem outOfRangeDirectivesAreRefused : Obligations.OutOfRangeDirectivesAreRefused := by
  refine ⟨fun n => ?word, fun g => ?src, fun l => ?stream, rfl, rfl, fun _ _ => rfl⟩
  case word =>
    rw [assembleLine_eq_none, wellFormed_word]
    exact ⟨fun hn => ⟨_, assembleLine_of_wellFormed ((wellFormed_word n).mpr hn), toNat_ofNat_of_lt hn⟩, id⟩
  case src =>
    rw [assembleLine_eq_none, wellFormed_src]
    refine ⟨fun ⟨hrows, hfits⟩ => ?_, id⟩
    exact ⟨_, assembleLine_of_wellFormed ((wellFormed_src g).mpr ⟨hrows, hfits⟩), sourceGrid_components hfits⟩
  case stream =>
    rw [assembleLine_eq_none, wellFormed_stream]
    exact ⟨fun hl => ⟨_, assembleLine_of_wellFormed ((wellFormed_stream l).mpr hl), map_toNat_ofNat hl⟩, id⟩

end Sys2Proof.Machine
end

section
/-! PROOFS. The per-pixel operations of the encoder (spec/40_encoder.md R80-R84, R89): the quantization lane by lane and as
arithmetic on natural numbers, its preimages, and what Q565 and PK16 answer in a running state. -/

namespace Sys2Proof.Machine

/-! ## The lanes of a quantized word -/

/-- A word is its three fields in order (R61, R63). -/
theorem fields_append (w : Word565) : redField w ++ greenField w ++ blueField w = w := by
  have hhigh : redField w ++ greenField w = w.extractLsb' 5 11 := BitVec.extractLsb'_append_extractLsb'_eq_extractLsb' rfl
  rw [hhigh]
  exact BitVec.extractLsb'_append_extractLsb'

/-- A pixel quantizes to a word exactly when each field of the word is the slice of its own component (R82). -/
theorem quantize_eq_iff (p : Pixel) (w : Word565) :
    quantize p = w ↔
      p.r.extractLsb' 3 5 = redField w ∧ p.g.extractLsb' 2 6 = greenField w ∧ p.b.extractLsb' 3 5 = blueField w := by
  conv_lhs => rw [quantize_eq_slices, ← fields_append w]
  rw [append_eq_append_iff, append_eq_append_iff, and_assoc]

/-- A slice that one mask covers and the other misses does not see the bits put under it. -/
theorem extractLsb'_replace {k n : Nat} {keep drop : Byte} (hkeep : keep.extractLsb' k n = BitVec.allOnes n)
    (hdrop : drop.extractLsb' k n = 0#n) (c low : Byte) :
    ((c &&& keep) ||| (low &&& drop)).extractLsb' k n = c.extractLsb' k n := by
  rw [BitVec.extractLsb'_or, BitVec.extractLsb'_and, BitVec.extractLsb'_and, hkeep, hdrop, BitVec.and_allOnes,
    BitVec.and_zero, BitVec.or_zero]

/-- The slices that Q565 keeps do not see the low bits it discards (R81). -/
theorem quantize_replaceLowBits (r g b lr lg lb : Byte) :
    quantize { r := (r &&& 0xF8#8) ||| (lr &&& 0x07#8), g := (g &&& 0xFC#8) ||| (lg &&& 0x03#8),
               b := (b &&& 0xF8#8) ||| (lb &&& 0x07#8) } = quantize { r := r, g := g, b := b } := by
  have hfive (c low : Byte) : ((c &&& 0xF8#8) ||| (low &&& 0x07#8)).extractLsb' 3 5 = c.extractLsb' 3 5 :=
    extractLsb'_replace (by decide) (by decide) c low
  have hsix (c low : Byte) : ((c &&& 0xFC#8) ||| (low &&& 0x03#8)).extractLsb' 2 6 = c.extractLsb' 2 6 :=
    extractLsb'_replace (by decide) (by decide) c low
  rw [quantize_eq_slices, quantize_eq_slices, hfive, hsix, hfive]

/-! ## The quantization on natural numbers -/

/-- The kept high bits of a component, as a number. -/
theorem toNat_extractLsb'_high (c : Byte) {k n : Nat} (hkn : k + n = 8) :
    (c.extractLsb' k n).toNat = c.toNat / 2 ^ k := by
  have hlt : c.toNat / 2 ^ k < 2 ^ n := Nat.div_lt_of_lt_mul (by rw [← pow_add, hkn]; exact c.isLt)
  rw [BitVec.extractLsb'_toNat, Nat.shiftRight_eq_div_pow, Nat.mod_eq_of_lt hlt]

theorem toNat_append_eq_add {m n : Nat} (a : BitVec m) (b : BitVec n) : (a ++ b).toNat = a.toNat * 2 ^ n + b.toNat := by
  rw [BitVec.toNat_append, ← Nat.shiftLeft_add_eq_or_of_lt b.isLt, Nat.shiftLeft_eq]

/-- The lanes are disjoint, so the quantization is a sum (R89). -/
theorem toNat_quantize_eq_sum (p : Pixel) :
    (quantize p).toNat = p.r.toNat / 8 * 2048 + p.g.toNat / 4 * 32 + p.b.toNat / 8 := by
  rw [quantize_eq_slices, toNat_append_eq_add, toNat_append_eq_add, toNat_extractLsb'_high p.r rfl,
    toNat_extractLsb'_high p.g rfl, toNat_extractLsb'_high p.b rfl]
  omega

/-- No term of the formula overflows 16 bits, so it is the source's formula on natural numbers (R80). -/
theorem toNat_quantize_eq_formula (p : Pixel) :
    (quantize p).toNat =
      ((p.r.toNat &&& 0xF8) <<< 8) ||| ((p.g.toNat &&& 0xFC) <<< 3) ||| (p.b.toNat >>> 3) := by
  have hbyte (c : Byte) : c.toNat % 65536 = c.toNat := Nat.mod_eq_of_lt (by omega)
  have hterm (n : Nat) {mask k : Nat} (hmask : mask * 2 ^ k < 65536) :
      (n &&& mask) <<< k % 65536 = (n &&& mask) <<< k := by
    rw [Nat.shiftLeft_eq]
    exact Nat.mod_eq_of_lt ((Nat.mul_le_mul_right _ Nat.and_le_right).trans_lt hmask)
  simp [quantize, hbyte, hterm p.r.toNat (by decide : 0xF8 * 2 ^ 8 < 65536),
    hterm p.g.toNat (by decide : 0xFC * 2 ^ 3 < 65536)]

/-! ## The preimages of a word -/

/-- The pixel whose kept bits are the fields of the word and whose discarded bits are these. -/
def withDiscardedBits (w : Word565) (low : Fin (2 ^ 3) × Fin (2 ^ 2) × Fin (2 ^ 3)) : Pixel where
  r := redField w ++ BitVec.ofFin low.1
  g := greenField w ++ BitVec.ofFin low.2.1
  b := blueField w ++ BitVec.ofFin low.2.2

theorem withDiscardedBits_injective (w : Word565) : Function.Injective (withDiscardedBits w) := by
  rintro ⟨r, g, b⟩ ⟨r', g', b'⟩ h
  obtain ⟨hr, hg, hb⟩ := Pixel.mk.inj h
  cases (append_eq_append_iff.mp hr).2
  cases (append_eq_append_iff.mp hg).2
  cases (append_eq_append_iff.mp hb).2
  rfl

/-- The pixels that quantize to a word are the word's fields with some discarded bits below them. -/
theorem quantize_eq_iff_exists_withDiscardedBits (p : Pixel) (w : Word565) :
    quantize p = w ↔ ∃ low, withDiscardedBits w low = p := by
  constructor
  · intro h
    obtain ⟨hr, hg, hb⟩ := (quantize_eq_iff p w).mp h
    refine ⟨((p.r.extractLsb' 0 3).toFin, (p.g.extractLsb' 0 2).toFin, (p.b.extractLsb' 0 3).toFin), ?_⟩
    have hfive (c : Byte) : c.extractLsb' 3 5 ++ c.extractLsb' 0 3 = c := BitVec.extractLsb'_append_extractLsb'
    have hsix (c : Byte) : c.extractLsb' 2 6 ++ c.extractLsb' 0 2 = c := BitVec.extractLsb'_append_extractLsb'
    change Pixel.mk (_ ++ p.r.extractLsb' 0 3) (_ ++ p.g.extractLsb' 0 2) (_ ++ p.b.extractLsb' 0 3) = p
    rw [← hr, ← hg, ← hb, hfive, hsix, hfive]
  · rintro ⟨low, rfl⟩
    exact (quantize_eq_iff _ w).mpr ⟨BitVec.extractLsb'_append_eq_left, BitVec.extractLsb'_append_eq_left,
      BitVec.extractLsb'_append_eq_left⟩

/-- The pixels that quantize to a word, one for each value of the 3 + 2 + 3 discarded bits (R83). -/
def preimages (w : Word565) : List Pixel :=
  (List.finRange (2 ^ 3) ×ˢ List.finRange (2 ^ 2) ×ˢ List.finRange (2 ^ 3)).map (withDiscardedBits w)

theorem length_preimages (w : Word565) : (preimages w).length = 256 := by
  simp [preimages, List.length_product]

theorem nodup_preimages (w : Word565) : (preimages w).Nodup :=
  ((List.nodup_finRange _).product ((List.nodup_finRange _).product (List.nodup_finRange _))).map
    (withDiscardedBits_injective w)

theorem mem_preimages (p : Pixel) (w : Word565) : p ∈ preimages w ↔ quantize p = w := by
  simp [preimages, quantize_eq_iff_exists_withDiscardedBits]

/-- The pixels that quantize to a word, component by component: each in the range of its field (R83). -/
theorem quantize_eq_iff_ranges (p : Pixel) (w : Word565) :
    quantize p = w ↔
      (8 * (redField w).toNat ≤ p.r.toNat ∧ p.r.toNat ≤ 8 * (redField w).toNat + 7) ∧
      (4 * (greenField w).toNat ≤ p.g.toNat ∧ p.g.toNat ≤ 4 * (greenField w).toNat + 3) ∧
      (8 * (blueField w).toNat ≤ p.b.toNat ∧ p.b.toNat ≤ 8 * (blueField w).toNat + 7) := by
  have hfive (c : Byte) (f : BitVec 5) :
      c.extractLsb' 3 5 = f ↔ 8 * f.toNat ≤ c.toNat ∧ c.toNat ≤ 8 * f.toNat + 7 := by
    rw [← BitVec.toNat_inj, toNat_extractLsb'_high c rfl]
    omega
  have hsix (c : Byte) (f : BitVec 6) :
      c.extractLsb' 2 6 = f ↔ 4 * f.toNat ≤ c.toNat ∧ c.toNat ≤ 4 * f.toNat + 3 := by
    rw [← BitVec.toNat_inj, toNat_extractLsb'_high c rfl]
    omega
  rw [quantize_eq_iff, hfive, hsix, hfive]

/-! ## Q565 -/

section
variable {s : State} (hrun : s.Running)
include hrun

theorem exec_q565_of_running (r g b : Byte) :
    exec (.q565 r g b) s = .next { s with qOut := some (quantize { r := r, g := g, b := b }) } :=
  execQ565_eq_next.mpr ⟨hrun, rfl⟩

/-- The word that Q565 drives is the quantization of its operands. -/
theorem exec_q565_eq_next_iff (p : Pixel) (w : Word565) :
    exec (.q565 p.r p.g p.b) s = .next { s with qOut := some w } ↔ quantize p = w := by
  rw [exec_q565_of_running hrun]
  simp

end

/-- Settles O16: the formula on natural numbers, and the row of Q565 in the opcode table. -/
theorem q565QuantizesByTheFormula : Obligations.Q565QuantizesByTheFormula := by
  refine ⟨fun s r g b hrun => ⟨_, exec_q565_of_running hrun r g b, toNat_quantize_eq_formula _⟩, fun c hc => ?_⟩
  exact decode_of_selects_q565 (beq_iff_eq.mpr hc)

/-- Settles O17: the quantization is the three slices put together, so its fields are the slices. -/
theorem q565WorksLaneByLane : Obligations.Q565WorksLaneByLane := by
  intro s r g b hrun
  obtain ⟨hr, hg, hb⟩ := (quantize_eq_iff { r := r, g := g, b := b } _).mp rfl
  exact ⟨_, exec_q565_of_running hrun r g b, quantize_eq_slices _, hr.symm, hg.symm, hb.symm⟩

/-- Settles O18: operands that differ in the discarded bits have one quantization, and the two examples are computed. -/
theorem q565IgnoresTheDiscardedBits : Obligations.Q565IgnoresTheDiscardedBits := by
  intro s r g b lr lg lb hrun
  refine ⟨?_, ⟨_, exec_q565_of_running hrun r g b, toNat_quantize_eq_formula _⟩, ?_, ?_⟩
  · rw [exec_q565_of_running hrun, exec_q565_of_running hrun, quantize_replaceLowBits]
  · exact (exec_q565_eq_next_iff hrun { r := 7#8, g := 3#8, b := 7#8 } _).mpr (by decide)
  · exact (exec_q565_eq_next_iff hrun { r := 247#8, g := 251#8, b := 247#8 } _).mpr (by decide)

/-- Settles O19: Q565 drives the word on its preimages, which are listed by their discarded bits. -/
theorem q565HasExactly256Preimages : Obligations.Q565HasExactly256Preimages := by
  intro s w hrun
  refine ⟨fun p => ?_, preimages w, length_preimages w, nodup_preimages w, fun p => ?_⟩
  · simp only [exec_q565_eq_next_iff hrun, quantize_eq_iff_ranges, and_assoc]
  · rw [exec_q565_eq_next_iff hrun, mem_preimages]

/-- Settles O20: the quantization is the sum of its lanes. -/
theorem q565OrIsASum : Obligations.Q565OrIsASum := fun _ r g b hrun =>
  ⟨_, exec_q565_of_running hrun r g b, toNat_quantize_eq_sum _⟩

/-! ## PK16 -/

theorem toNat_lowByte (w : Word565) : (lowByte w).toNat = w.toNat % 256 := by
  rw [lowByte, BitVec.extractLsb'_toNat, Nat.shiftRight_zero]

theorem toNat_highByte (w : Word565) : (highByte w).toNat = w.toNat / 256 := by
  have hlt : w.toNat < 65536 := w.isLt
  rw [highByte, BitVec.extractLsb'_toNat, Nat.shiftRight_eq_div_pow]
  omega

/-- Settles O21: the two bytes as numbers, and the row of PK16 in the opcode table. -/
theorem pk16SplitsLowByteFirst : Obligations.Pk16SplitsLowByteFirst := by
  refine ⟨fun s w hrun => ⟨lowByte w, highByte w, ?_, toNat_lowByte w, toNat_highByte w⟩, fun c hc => ?_⟩
  · exact execPk16_eq_next.mpr ⟨hrun, rfl⟩
  · exact decode_of_selects_pk16 (beq_iff_eq.mpr hc)

end Sys2Proof.Machine
end

section
/-! PROOFS. ENCF (spec/40_encoder.md R85-R87): the stream of an encoded frame, byte by byte, and that ENCF's result depends
on its inputs alone. -/

namespace Sys2Proof.Machine

/-! ## The stream of an encoded frame -/

section
variable {w h : Nat} {g : Grid} (hshape : hasShape w h g = true)
include hshape

theorem length_encodeFrame : (encodeFrame g).length = frameBytes w h := by
  rw [encodeFrame, Memory.ofBytes_length, gridBytes_length hshape]

/-- The two bytes of a pixel stand at the offsets of its word, low byte first (R43, R44). -/
theorem read_encodeFrame {x y : Nat} {p : Pixel} (hx : x < w) (hp : pixelAt g x y = some p) :
    Memory.read (encodeFrame g) (lowOffset (wordIndex w x y)) = some (lowByte (quantize p)) ∧
      Memory.read (encodeFrame g) (highOffset (wordIndex w x y)) = some (highByte (quantize p)) := by
  have hbyte {k : Nat} (hk : k < 2) :
      Memory.read (encodeFrame g) (2 * wordIndex w x y + k) = (pixelBytes p)[k]? := by
    rw [encodeFrame, Memory.read_ofBytes, gridBytes_at hshape hx hk, hp, Option.bind_some]
  exact ⟨hbyte (by decide : 0 < 2), hbyte (by decide : 1 < 2)⟩

end

/-- Settles O31: ENCF succeeds on a source of the frame's shape, and the stream it writes is the encoded frame. -/
theorem encfEncodesTheFrame : Obligations.EncfEncodesTheFrame := by
  intro s g hrun hsrc hw hh hallowed hheight hwidth
  have hshape : hasShape s.cfgW s.cfgH g = true := (hasShape_iff ..).mpr ⟨hheight, hwidth⟩
  refine ⟨encodeFrame g, execEncf_success hrun hsrc hw hh hallowed hshape, ?_, Memory.wf_ofBytes _, fun x y hx hy => ?_⟩
  · rw [length_encodeFrame hshape, frameBytes]
    ring
  · obtain ⟨p, hp⟩ := pixelAt_of_shape hshape hx hy
    exact ⟨p, hp, read_encodeFrame hshape hx hp⟩

/-! ## The inputs of ENCF -/

/-- Settles O39: on states with equal inputs ENCF has the same outcome, read in both directions for the existence of a
step. -/
theorem encfDependsOnlyOnItsInputs : Obligations.EncfDependsOnlyOnItsInputs := by
  intro s s' hrun hrun' hconfig hw hh hsrc
  obtain ⟨-, hnext⟩ := sameOutcome_execEncf hrun hrun' hconfig hw hh hsrc
  obtain ⟨-, hnext'⟩ := sameOutcome_execEncf hrun' hrun hconfig.symm hw.symm hh.symm hsrc.symm
  refine ⟨⟨fun ⟨t, ht⟩ => ?_, fun ⟨t', ht'⟩ => ?_⟩, fun t t' ht ht' => ?_⟩
  · obtain ⟨t', ht', -⟩ := hnext t ht
    exact ⟨t', ht'⟩
  · obtain ⟨t, ht, -⟩ := hnext' t' ht'
    exact ⟨t, ht⟩
  · obtain ⟨u, hu, hfault, hstream⟩ := hnext t ht
    cases hu.symm.trans ht'
    exact ⟨hstream, hfault⟩

end Sys2Proof.Machine
end

section
/-! PROOFS. The per-pixel operations of the decoder (spec/41_decoder.md R100-R103, R107, R108): the join of two bytes and the
reconstruction as arithmetic on natural numbers, what UPK16 and D565 answer in a running state, and the round trips with
PK16 and Q565. -/

namespace Sys2Proof.Machine

/-! ## The per-pixel operations in a running state -/

section
variable {s : State} (hrun : s.Running)
include hrun

theorem exec_pk16_of_running (w : Word565) : exec (.pk16 w) s = .next (s.setBytesOut (lowByte w) (highByte w)) :=
  execPk16_eq_next.mpr ⟨hrun, rfl⟩

theorem exec_upk16_of_running (b0 b1 : Byte) : exec (.upk16 b0 b1) s = .next (s.setWOut (joinBytes b0 b1)) :=
  execUpk16_eq_next.mpr ⟨hrun, rfl⟩

theorem exec_d565_of_running (w : Word565) : exec (.d565 w) s = .next (s.setRgbOut (reconstruct w)) :=
  execD565_eq_next.mpr ⟨hrun, rfl⟩

end

/-! ## UPK16 -/

/-- The high byte stays inside 16 bits when it is shifted, so the join is the formula on natural numbers (R100). -/
theorem toNat_joinBytes (b0 b1 : Byte) : (joinBytes b0 b1).toNat = b0.toNat ||| (b1.toNat <<< 8) := by
  rw [joinBytes_eq_append, BitVec.toNat_append, Nat.or_comm]

/-- Settles O22: the joined word as a number and as bits, and the row of UPK16 in the opcode table. -/
theorem upk16JoinsLowByteFirst : Obligations.Upk16JoinsLowByteFirst := by
  refine ⟨fun s b0 b1 hrun => ⟨joinBytes b0 b1, ?_, toNat_joinBytes b0 b1, joinBytes_eq_append b0 b1⟩, fun c hc => ?_⟩
  · exact exec_upk16_of_running hrun b0 b1
  · exact decode_of_selects_upk16 (beq_iff_eq.mpr hc)

/-! ## D565 -/

/-- A masked field that stays inside 8 bits when it is shifted loses nothing. -/
theorem toNat_shiftLeft_and_setWidth (v mask : Word565) {k : Nat} (hmask : mask.toNat * 2 ^ k < 256) :
    (((v &&& mask) <<< k).setWidth 8).toNat = (v.toNat &&& mask.toNat) <<< k := by
  have hlt : (v.toNat &&& mask.toNat) <<< k < 256 := by
    rw [Nat.shiftLeft_eq]
    exact (Nat.mul_le_mul_right _ Nat.and_le_right).trans_lt hmask
  rw [BitVec.toNat_setWidth, BitVec.toNat_shiftLeft, BitVec.toNat_and, Nat.mod_eq_of_lt (hlt.trans (by decide)),
    Nat.mod_eq_of_lt hlt]

/-- Settles O23: each component is a shifted field that fits 8 bits, and the row of D565 is in the opcode table. -/
theorem d565ReconstructsByTheFormula : Obligations.D565ReconstructsByTheFormula := by
  refine ⟨fun s w hrun => ⟨_, _, _, exec_d565_of_running hrun w, ?_, ?_, ?_⟩, fun c hc => ?_⟩
  · exact toNat_shiftLeft_and_setWidth (w >>> 11) 0x1F#16 (by decide)
  · exact toNat_shiftLeft_and_setWidth (w >>> 5) 0x3F#16 (by decide)
  · exact toNat_shiftLeft_and_setWidth w 0x1F#16 (by decide)
  · exact decode_of_selects_d565 (beq_iff_eq.mpr hc)

/-- A byte whose low bits are zero is a multiple of their weight (R102). -/
theorem toNat_mod_eq_zero_of_and_low {c : Byte} {k : Nat} (hk : k ≤ 8) (hlow : c &&& BitVec.ofNat 8 (2 ^ k - 1) = 0#8) :
    c.toNat % 2 ^ k = 0 := by
  have hmask : 2 ^ k - 1 < 2 ^ 8 :=
    (Nat.sub_lt (Nat.two_pow_pos k) Nat.one_pos).trans_le (Nat.pow_le_pow_right (by decide) hk)
  have hnat := congrArg BitVec.toNat hlow
  rwa [BitVec.toNat_and, BitVec.toNat_ofNat, Nat.mod_eq_of_lt hmask, Nat.and_two_pow_sub_one_eq_mod] at hnat

/-- The components of a zero-filled pixel: multiples of the weight of their low bits, and so bounded below 256 (R102). -/
theorem ranges_of_zeroFilled {p : Pixel} (hzero : zeroFilled p = true) :
    (8 ∣ p.r.toNat ∧ p.r.toNat ≤ 248) ∧ (4 ∣ p.g.toNat ∧ p.g.toNat ≤ 252) ∧ (8 ∣ p.b.toNat ∧ p.b.toNat ≤ 248) := by
  simp only [zeroFilled, Bool.and_eq_true, beq_iff_eq] at hzero
  obtain ⟨⟨hr, hg⟩, hb⟩ := hzero
  have hr8 : p.r.toNat % 2 ^ 3 = 0 := toNat_mod_eq_zero_of_and_low (by decide) hr
  have hg4 : p.g.toNat % 2 ^ 2 = 0 := toNat_mod_eq_zero_of_and_low (by decide) hg
  have hb8 : p.b.toNat % 2 ^ 3 = 0 := toNat_mod_eq_zero_of_and_low (by decide) hb
  omega

/-- Settles O24: a reconstruction is zero-filled, and so in the ranges. -/
theorem d565FillsWithZeros : Obligations.D565FillsWithZeros := by
  intro s w hrun
  have hzero := zeroFilled_reconstruct w
  obtain ⟨hr, hg, hb⟩ := ranges_of_zeroFilled hzero
  simp only [zeroFilled, Bool.and_eq_true, beq_iff_eq, and_assoc] at hzero
  exact ⟨_, _, _, exec_d565_of_running hrun w, hr, hg, hb, hzero⟩

/-- Settles O25: the reconstruction is the three fields, each with zeros below it. -/
theorem d565WorksLaneByLane : Obligations.D565WorksLaneByLane := by
  intro s w hrun
  rw [exec_d565_of_running hrun, reconstruct_eq_slices]
  rfl

/-! ## The round trips -/

theorem reconstruct_injective : Function.Injective reconstruct :=
  Function.LeftInverse.injective quantize_reconstruct

/-- Clearing the discarded bits is what the two conversions in a row do (R107). -/
theorem reconstruct_quantize_eq_truncated (p : Pixel) : reconstruct (quantize p) = truncated p := reconstruct_quantize p

/-- Quantizing again, with the discarded bits cleared, changes nothing (R107). -/
theorem quantize_truncated (p : Pixel) : quantize (truncated p) = quantize p := by
  rw [← reconstruct_quantize_eq_truncated, quantize_reconstruct]

/-- D565 of the word that Q565 drives for a pixel drives the pixel with its discarded bits cleared (R107). -/
theorem exec_d565_quantize {s : State} (hrun : s.Running) (p : Pixel) :
    exec (.d565 (quantize p)) s = .next (s.setRgbOut (truncated p)) := by
  rw [exec_d565_of_running hrun, reconstruct_quantize_eq_truncated]

/-- A mask keeps a value exactly when the complementary mask finds nothing to drop. -/
theorem and_eq_self_iff_and_not_eq_zero {n : Nat} (c keep : BitVec n) : c &&& keep = c ↔ c &&& ~~~keep = 0#n := by
  simp only [BitVec.eq_of_getLsbD_eq_iff, BitVec.getLsbD_and, BitVec.getLsbD_not, BitVec.getLsbD_zero]
  refine forall₂_congr fun i hi => ?_
  cases c.getLsbD i <;> simp [hi]

theorem setRgbOut_eq_iff (s : State) (p p' : Pixel) : s.setRgbOut p = s.setRgbOut p' ↔ p = p' := by
  cases p
  cases p'
  simp [State.setRgbOut]

/-- Settles O26: the two conversions in a row are the identity on words and truncation on pixels, so reconstruction is
injective. -/
theorem quantizeAndReconstructAreInverse : Obligations.QuantizeAndReconstructAreInverse := by
  refine ⟨fun s w hrun => ?wordRoundTrip, fun s r g b hrun => ?pixelRoundTrip, fun s w w' hrun heq => ?injective⟩
  case wordRoundTrip =>
    exact ⟨_, _, _, _, exec_d565_of_running hrun w, rfl,
      (exec_q565_eq_next_iff (s := s.setRgbOut (reconstruct w)) hrun (reconstruct w) w).mpr (quantize_reconstruct w)⟩
  case pixelRoundTrip =>
    refine ⟨_, _, exec_q565_of_running hrun r g b, rfl, exec_d565_quantize (s := s.setQOut _) hrun ⟨r, g, b⟩,
      (exec_q565_eq_next_iff hrun (truncated ⟨r, g, b⟩) _).mpr (quantize_truncated _), ?_⟩
    rw [and_eq_self_iff_and_not_eq_zero, and_eq_self_iff_and_not_eq_zero, and_eq_self_iff_and_not_eq_zero]
    exact Iff.rfl
  case injective =>
    rw [exec_d565_of_running hrun, exec_d565_of_running hrun, Host.Outcome.next.injEq, setRgbOut_eq_iff] at heq
    exact reconstruct_injective heq

/-- Settles O27: splitting and joining invert each other, and each operation drives its own ports only. -/
theorem packAndUnpackAreInverse : Obligations.PackAndUnpackAreInverse := by
  refine ⟨fun s w hrun => ?wordRoundTrip, fun s b0 b1 hrun => ?bytesRoundTrip⟩
  case wordRoundTrip =>
    have hword := exec_upk16_of_running (s := s.setBytesOut (lowByte w) (highByte w)) hrun (lowByte w) (highByte w)
    rw [joinBytes_bytes] at hword
    exact ⟨_, _, _, exec_pk16_of_running hrun w, rfl, hword⟩
  case bytesRoundTrip =>
    have hbytes := exec_pk16_of_running (s := s.setWOut (joinBytes b0 b1)) hrun (joinBytes b0 b1)
    rw [lowByte_joinBytes, highByte_joinBytes] at hbytes
    exact ⟨_, _, exec_upk16_of_running hrun b0 b1, rfl, hbytes⟩

end Sys2Proof.Machine
end

section
/-! PROOFS. DECF (spec/41_decoder.md R104-R106, R109, R110): the grid of a decoded stream, pixel by pixel, the round trip of
a frame, and that DECF's result depends on its inputs alone. -/

namespace Sys2Proof.Machine

/-! ## The grid of a decoded stream -/

/-- The pixel of a word index in a decoded frame: the reconstruction of the two bytes at its offsets (R106). -/
theorem pixelAt_decodeFrame {m : Memory} {w h i : Nat} {d : Grid} (hdec : decodeFrame m w h = some d) (hi : i < w * h) :
    ∃ b0 b1 : Byte, Memory.read m (lowOffset i) = some b0 ∧ Memory.read m (highOffset i) = some b1 ∧
      pixelAt d (wordColumn w i) (wordRow w i) = some (reconstruct (joinBytes b0 b1)) := by
  obtain ⟨hshape, hpixels⟩ := (decodeFrame_eq_some m w h d).mp hdec
  obtain ⟨hx, hy, hindex⟩ := wordColumn_wordRow_of_lt hi
  obtain ⟨p, hp⟩ := pixelAt_of_shape hshape hx hy
  have hword := hpixels _ hx _ hy
  rw [hindex, hp] at hword
  obtain ⟨v, hv, rfl⟩ := Option.map_eq_some_iff.mp hword
  obtain ⟨b0, b1, h0, h1, rfl⟩ := (readWord_eq_some m i v).mp hv
  exact ⟨b0, b1, h0, h1, hp⟩

/-- Settles O32: a stream in canonical form of the frame's length decodes, and DECF writes the decoded frame. -/
theorem decfDecodesTheFrame : Obligations.DecfDecodesTheFrame := by
  intro s m hrun hstream hwf hw hh hallowed hbytes
  have hlen : m.length = frameBytes s.cfgW s.cfgH := by
    rw [hbytes, frameBytes]
    ring
  obtain ⟨d, hdec⟩ := decodeFrame_of_wf hwf hlen
  obtain ⟨hshape, -⟩ := (decodeFrame_eq_some _ _ _ d).mp hdec
  obtain ⟨hheight, hwidth⟩ := (hasShape_iff _ _ d).mp hshape
  refine ⟨d, execDecf_success hrun hstream hw hh hallowed hlen hdec, hheight, hwidth,
    fun i => pixelAt_decodeFrame hdec, fun row hrow p hp => ?_⟩
  exact ranges_of_zeroFilled (zeroFilled_of_decodeFrame hdec row hrow p hp)

/-! ## The round trip of a frame -/

/-- A frame with the discarded bits of every pixel cleared: what DECF makes of an encoded frame (R109). -/
def truncatedFrame (g : Grid) : Grid := g.map (List.map truncated)

theorem pixelAt_truncatedFrame (g : Grid) (x y : Nat) : pixelAt (truncatedFrame g) x y = (pixelAt g x y).map truncated := by
  cases hrow : g[y]? with
  | none => simp [pixelAt, truncatedFrame, hrow]
  | some row => simp [pixelAt, truncatedFrame, hrow]

theorem hasShape_truncatedFrame {w h : Nat} {g : Grid} (hshape : hasShape w h g = true) :
    hasShape w h (truncatedFrame g) = true := by
  rw [hasShape_iff] at hshape ⊢
  simpa [truncatedFrame] using hshape

/-- The word of a pixel in the encoded frame is its quantization (R85). -/
theorem readWord_encodeFrame {w h : Nat} {g : Grid} (hshape : hasShape w h g = true) {x y : Nat} {p : Pixel} (hx : x < w)
    (hp : pixelAt g x y = some p) : readWord (encodeFrame g) (wordIndex w x y) = some (quantize p) := by
  obtain ⟨hlow, hhigh⟩ := read_encodeFrame hshape hx hp
  exact (readWord_eq_some ..).mpr ⟨_, _, hlow, hhigh, joinBytes_bytes _⟩

/-- Decoding an encoded frame gives the frame with its discarded bits cleared (R109). -/
theorem decodeFrame_encodeFrame {w h : Nat} {g : Grid} (hshape : hasShape w h g = true) :
    decodeFrame (encodeFrame g) w h = some (truncatedFrame g) := by
  refine (decodeFrame_eq_some ..).mpr ⟨hasShape_truncatedFrame hshape, fun x hx y hy => ?_⟩
  obtain ⟨p, hp⟩ := pixelAt_of_shape hshape hx hy
  rw [readWord_encodeFrame hshape hx hp, pixelAt_truncatedFrame, hp, Option.map_some, Option.map_some,
    reconstruct_quantize_eq_truncated]

/-- The discarded bits do not reach the stream (R109). -/
theorem encodeFrame_truncatedFrame (g : Grid) : encodeFrame (truncatedFrame g) = encodeFrame g := by
  have hpixel (p : Pixel) : pixelBytes (truncated p) = pixelBytes p := by rw [pixelBytes, quantize_truncated, pixelBytes]
  simp only [encodeFrame, gridBytes, truncatedFrame, List.flatMap_map, hpixel]

/-- DECF on the stream of a frame of the configured shape writes the frame with its discarded bits cleared (R109). -/
theorem execDecf_of_encodeFrame {s : State} {g : Grid} (hrun : s.Running) (hstream : s.stream = some (encodeFrame g))
    (hw : 0 < s.cfgW) (hh : 0 < s.cfgH) (hallowed : frameAllowed s.config s.cfgW s.cfgH = true)
    (hshape : hasShape s.cfgW s.cfgH g = true) : execDecf s = .next (s.setDst (some (truncatedFrame g))) :=
  execDecf_success hrun hstream hw hh hallowed (length_encodeFrame hshape) (decodeFrame_encodeFrame hshape)

/-- Settles O43: DECF of an encoded frame writes the truncated frame, which has the shape and the stream of the source. -/
theorem frameRoundTrip : Obligations.FrameRoundTrip := by
  intro s t t' g hsrc hencf hfault hrun' hconfig' hw' hh' hstream'
  obtain ⟨-, ⟨g', hsrc', hw, hh, hallowed, hshape⟩, rfl⟩ := execEncf_succeeds_iff.mp ⟨hencf, hfault⟩
  cases hsrc.symm.trans hsrc'
  have hstream : (writeOutputs s .encf).stream = some (encodeFrame g) := by simp [writeOutputs, hsrc]
  rw [hstream] at hstream' ⊢
  refine ⟨t'.setDst (some (truncatedFrame g)), truncatedFrame g, ?decf, hrun'.1, rfl, fun x y hx hy => ?pixels,
    fun v hrunv hconfigv hwv hhv hsrcv => ?encf⟩
  case decf =>
    simp only [← hconfig', ← hw', ← hh'] at hw hh hallowed hshape
    exact execDecf_of_encodeFrame hrun' hstream' hw hh hallowed hshape
  case pixels =>
    obtain ⟨p, hp⟩ := pixelAt_of_shape hshape hx hy
    exact ⟨p, hp, by rw [pixelAt_truncatedFrame, hp]; rfl⟩
  case encf =>
    simp only [← hconfigv, ← hwv, ← hhv] at hw hh hallowed hshape
    rw [← encodeFrame_truncatedFrame g]
    exact execEncf_success hrunv hsrcv hw hh hallowed (hasShape_truncatedFrame hshape)

/-! ## The inputs of DECF -/

/-- Two outcomes that are the same in both directions have a next state together, and their next states are related. -/
theorem SameOutcome.next_iff_and_related {R R' : State → State → Prop} {o o' : Host.Outcome State Fault Refusal}
    (h : SameOutcome R o o') (h' : SameOutcome R' o' o) :
    ((∃ t, o = .next t) ↔ ∃ t', o' = .next t') ∧ ∀ t t', o = .next t → o' = .next t' → R t t' := by
  obtain ⟨-, hnext⟩ := h
  obtain ⟨-, hnext'⟩ := h'
  refine ⟨⟨fun ⟨t, ht⟩ => ?_, fun ⟨t', ht'⟩ => ?_⟩, fun t t' ht ht' => ?_⟩
  · obtain ⟨t', ht', -⟩ := hnext t ht
    exact ⟨t', ht'⟩
  · obtain ⟨t, ht, -⟩ := hnext' t' ht'
    exact ⟨t, ht⟩
  · obtain ⟨u, hu, hrel⟩ := hnext t ht
    cases hu.symm.trans ht'
    exact hrel

/-- Settles O40: on states with equal inputs DECF has the same outcome, in both directions. -/
theorem decfDependsOnlyOnItsInputs : Obligations.DecfDependsOnlyOnItsInputs := by
  intro s s' hrun hrun' hconfig hw hh hstream
  obtain ⟨hsteps, hagree⟩ := (sameOutcome_execDecf hrun hrun' hconfig hw hh hstream).next_iff_and_related
    (sameOutcome_execDecf hrun' hrun hconfig.symm hw.symm hh.symm hstream.symm)
  exact ⟨hsteps, fun t t' ht ht' => (hagree t t' ht ht').symm⟩

end Sys2Proof.Machine
end

section
/-! PROOFS. Exceptions (spec/60_exceptions.md R121-R129): the operations that never fault, the faults of ENCF and DECF in the
order of R127, what entering a fault changes, and that a faulted run performs no further command. -/

namespace Sys2Proof.Machine

/-! ## The operations that never fault -/

/-- Settles O28: a per-pixel operation needs nothing of the state to succeed, and what it writes does not end the run. -/
theorem pixelOperationsNeverFault : Obligations.PixelOperationsNeverFault := by
  intro s i hrun hencf hdecf
  obtain ⟨hexec, -⟩ := exec_succeeds_iff.mpr ⟨hrun, succeedsOn_pixel hencf hdecf s, rfl⟩
  exact ⟨writeOutputs s i, hexec, (writeOutputs_running s i).mpr hrun⟩

/-! ## The faults of ENCF and DECF -/

/-- A dimension 0 is the first thing the checks of a frame operation look at (R127). -/
theorem frameChecks_zeroDimension (u : FrameUnit) {s : State} (hzero : s.cfgW = 0 ∨ s.cfgH = 0)
    (k : Host.Outcome State Fault Refusal) :
    frameChecks u s k = .next (raiseFault u (.invalidDimension s.cfgW s.cfgH) s) :=
  frameChecks_eq_next.mpr (.inl ⟨hzero, rfl⟩)

section
variable {s : State} (hrun : s.Running)
include hrun

theorem execEncf_of_absent (hsrc : s.src = none) : execEncf s = .next (raiseFault .encoder .decodeError s) := by
  simp [execEncf, whileRunning_of_running hrun, hsrc]

theorem execEncf_of_zeroDimension {g : Grid} (hsrc : s.src = some g) (hzero : s.cfgW = 0 ∨ s.cfgH = 0) :
    execEncf s = .next (raiseFault .encoder (.invalidDimension s.cfgW s.cfgH) s) := by
  simp [execEncf, whileRunning_of_running hrun, hsrc, frameChecks_zeroDimension .encoder hzero]

theorem execEncf_of_otherShape {g : Grid} (hsrc : s.src = some g) (hw : 0 < s.cfgW) (hh : 0 < s.cfgH)
    (hallowed : frameAllowed s.config s.cfgW s.cfgH = true) (hshape : ¬ hasShape s.cfgW s.cfgH g = true) :
    execEncf s = .next (raiseFault .encoder (.gridMismatch (gridWidth g) (gridHeight g) s.cfgW s.cfgH) s) := by
  simp [execEncf, whileRunning_of_running hrun, hsrc, frameChecks_pass hw hh hallowed, hshape]

theorem execDecf_of_absent (hstream : s.stream = none) : execDecf s = .next (raiseFault .decoder .ioError s) := by
  simp [execDecf, whileRunning_of_running hrun, hstream]

theorem execDecf_of_zeroDimension {m : Memory} (hstream : s.stream = some m) (hzero : s.cfgW = 0 ∨ s.cfgH = 0) :
    execDecf s = .next (raiseFault .decoder (.invalidDimension s.cfgW s.cfgH) s) := by
  simp [execDecf, whileRunning_of_running hrun, hstream, frameChecks_zeroDimension .decoder hzero]

theorem execDecf_of_otherLength {m : Memory} (hstream : s.stream = some m) (hw : 0 < s.cfgW) (hh : 0 < s.cfgH)
    (hallowed : frameAllowed s.config s.cfgW s.cfgH = true) (hlen : m.length ≠ frameBytes s.cfgW s.cfgH) :
    execDecf s = .next (raiseFault .decoder (.sizeMismatch m.length (frameBytes s.cfgW s.cfgH)) s) := by
  simp [execDecf, whileRunning_of_running hrun, hstream, frameChecks_pass hw hh hallowed, hlen]

end

/-- Settles O33: an absent SRC is checked first; a rectangular SRC of another width or height fails the shape check. -/
theorem encfFaultsOnItsSource : Obligations.EncfFaultsOnItsSource := by
  intro s hrun
  refine ⟨execEncf_of_absent hrun, fun g hsrc hrect hw hh hallowed hother => ?_, rfl, rfl, fun _ _ _ _ => ⟨rfl, rfl⟩⟩
  have hshape : ¬ hasShape s.cfgW s.cfgH g = true := fun h => hother ((hasShape_of_rectangular hrect hh).mp h)
  exact execEncf_of_otherShape hrun hsrc hw hh hallowed hshape

/-- Settles O34: an absent STREAM is checked first; the length is compared with `frameBytes`, which is CFG_W·CFG_H·2. -/
theorem decfFaultsOnItsStream : Obligations.DecfFaultsOnItsStream := by
  intro s hrun
  exact ⟨execDecf_of_absent hrun, fun m => execDecf_of_otherLength hrun, rfl, rfl, fun _ _ => ⟨rfl, rfl⟩⟩

/-- Settles O35: with its input there, each frame operation comes to the dimension check before any check of shape or
length. -/
theorem zeroDimensionsFault : Obligations.ZeroDimensionsFault := by
  intro s hrun hzero
  exact ⟨fun g hsrc => execEncf_of_zeroDimension hrun hsrc hzero,
    fun m hstream => execDecf_of_zeroDimension hrun hstream hzero, rfl, rfl⟩

/-! ## Entering a fault -/

/-- Of the next states of ENCF, the encoded frame alone leaves FAULT none; each of the others is a fault entry (R128). -/
theorem execEncf_faults {s t : State} (h : execEncf s = .next t) (hfault : t.fault ≠ none) :
    ∃ r, t = raiseFault .encoder r s := by
  obtain ⟨hrun, ⟨-, rfl⟩ | ⟨g, -, ⟨-, rfl⟩ | ⟨-, -, -, ⟨-, rfl⟩ | ⟨-, rfl⟩⟩⟩⟩ := execEncf_cases h
  case inr.inr.inl => exact absurd hrun.1 hfault
  all_goals exact ⟨_, rfl⟩

/-- Of the next states of DECF, the decoded frame alone leaves FAULT none; each of the others is a fault entry (R128). -/
theorem execDecf_faults {s t : State} (h : execDecf s = .next t) (hfault : t.fault ≠ none) :
    ∃ r, t = raiseFault .decoder r s := by
  obtain ⟨hrun, ⟨-, rfl⟩ | ⟨m, -, ⟨-, rfl⟩ | ⟨-, -, -, ⟨-, g, -, rfl⟩ | ⟨-, rfl⟩⟩⟩⟩ := execDecf_cases h
  case inr.inr.inl => exact absurd hrun.1 hfault
  all_goals exact ⟨_, rfl⟩

/-- Settles O37: a per-pixel operation never faults, and a frame operation that does answers `raiseFault`. -/
theorem faultEntryChangesNothingElse : Obligations.FaultEntryChangesNothingElse := by
  intro i s t h hfault
  by_cases hencf : i = .encf
  · subst hencf
    obtain ⟨r, rfl⟩ := execEncf_faults h hfault
    exact ⟨r, .inl ⟨rfl, raiseFault_encoder r s⟩⟩
  by_cases hdecf : i = .decf
  · subst hdecf
    obtain ⟨r, rfl⟩ := execDecf_faults h hfault
    exact ⟨r, .inr ⟨rfl, raiseFault_decoder r s⟩⟩
  obtain ⟨t', h', hrun'⟩ := pixelOperationsNeverFault s i (running_of_exec h) hencf hdecf
  cases h.symm.trans h'
  exact absurd hrun'.1 hfault

/-! ## A faulted run -/

section
variable {s : State} {r : FaultRecord} (hfault : s.fault = some r)
include hfault

/-- Once FAULT is set, no operation has a step (R129). -/
theorem exec_of_fault (i : Instr) : exec i s = .fault .runFaulted := by
  cases i <;> exact whileRunning_faulted hfault _

/-- Once FAULT is set, no command has a step, whichever word it is (R129). -/
theorem performCommand_of_fault (c : Command) : performCommand c s = .fault .runFaulted := by
  cases hdec : decode c with
  | none => simp [performCommand, hdec, refuseCommand, whileRunning_faulted hfault]
  | some i => rw [performCommand_of_decode hdec, exec_of_fault hfault]

theorem step_command_of_fault {c : Command} {rest : List HostInput} (hin : s.inputs = .command c :: rest) :
    step s = .fault .runFaulted := by
  calc step s = performCommand c (s.setInputs rest) := step_eq_performInput hin
    _ = .fault .runFaulted := performCommand_of_fault (s := s.setInputs rest) hfault c

theorem runEnd_of_fault : runEnd s = some .faulted := by
  simp [runEnd, hfault]

/-- A step of a faulted run is no command's, and of the host's actions reset alone writes FAULT (R129). -/
theorem step_keeps_fault {a : HostInput} {rest : List HostInput} {t : State} (hin : s.inputs = a :: rest)
    (ha : a ≠ .reset) (hstep : step s = .next t) : t.fault = some r := by
  obtain ⟨a', rest', hin', hcases⟩ := step_cases hstep
  cases hin.symm.trans hin'
  obtain ⟨c, rfl, -⟩ | ⟨hreset, -⟩ | ⟨w, hgt, -, -, -, rfl⟩ | ⟨g, -, -, rfl⟩ | ⟨bs, -, rfl⟩ := hcases
  · exact nomatch (step_command_of_fault hfault hin).symm.trans hstep
  · exact absurd hreset ha
  all_goals simpa using hfault

end

/-- A reset in any state starts a run (R140, R141). -/
theorem step_reset_running {s : State} {rest : List HostInput} (hin : s.inputs = .reset :: rest) :
    ∃ t, step s = .next t ∧ t.Running :=
  ⟨_, step_eq_performInput hin, rfl, rfl⟩

/-- Settles O11: the host's plan is no part of FAULT, so each clause is that of a faulted run with its own plan. -/
theorem noCommandStepsAfterAFault : Obligations.NoCommandStepsAfterAFault := by
  intro s r hfault
  exact ⟨exec_of_fault hfault, fun c rest => step_command_of_fault hfault rfl, runEnd_of_fault hfault,
    fun a rest t ha hstep => step_keeps_fault (s := { s with inputs := a :: rest }) hfault rfl ha hstep,
    fun rest => step_reset_running rfl⟩

end Sys2Proof.Machine
end

section
/-! PROOFS. Runs and their ends (spec/70_reset_and_hazards.md R140-R147): reset alone clears FAULT and
REFUSED, how a run stands, when a command has a step, and a stream decoded at other dimensions of the same product. -/

namespace Sys2Proof.Machine

/-! ## Reset -/

/-- A step of a refused run is no command's, and of the host's actions reset alone writes REFUSED (R130, R140). -/
theorem step_keeps_refused {s t : State} {a : HostInput} {rest : List HostInput} (hrefused : s.refused = true)
    (hin : s.inputs = a :: rest) (ha : a ≠ .reset) (hstep : step s = .next t) : t.refused = true := by
  have hended : ¬ s.Running := fun hrun => by simp [hrun.2] at hrefused
  obtain ⟨a', rest', hin', hcases⟩ := step_cases hstep
  cases hin.symm.trans hin'
  obtain ⟨c, -, ⟨i, -, hexec⟩ | ⟨-, hrun, -⟩⟩ | ⟨hreset, -⟩ | ⟨w, hgt, -, -, -, rfl⟩ | ⟨g, -, -, rfl⟩ | ⟨bs, -, rfl⟩ := hcases
  · exact absurd ((State.running_setInputs s rest).mp (running_of_exec hexec)) hended
  · exact absurd hrun hended
  · exact absurd hreset ha
  all_goals simpa using hrefused

/-- Settles O10: a reset writes the reset state over everything but the parameters and the plan; any other action that has
a step keeps FAULT and REFUSED. -/
theorem onlyResetStartsANewRun : Obligations.OnlyResetStartsANewRun := by
  refine ⟨fun s rest hin => step_eq_performInput hin, fun s t hstep hother => ?_⟩
  obtain ⟨a, hin⟩ := stepsTakeActionsInOrder s t hstep
  have ha : a ≠ .reset := fun h => hother t.inputs (h ▸ hin)
  exact ⟨fun r hfault => step_keeps_fault hfault hin ha hstep, fun hrefused => step_keeps_refused hrefused hin ha hstep⟩

/-! ## Other dimensions of the same product -/

/-- MAX_PIXELS bounds the number of pixels, whatever the dimensions (R7). -/
theorem frameAllowed_of_mul_eq {cfg : Config} {w h w' h' : Nat} (hprod : w' * h' = w * h)
    (hallowed : frameAllowed cfg w h = true) : frameAllowed cfg w' h' = true := by
  unfold frameAllowed at hallowed ⊢
  rwa [hprod]

/-- Word `i` of an encoded frame, decoded at any dimensions that have it, lands at (i mod w', i div w') (R144). -/
theorem pixelAt_decodeFrame_encodeFrame {w h w' h' i : Nat} {g d : Grid} (hshape : hasShape w h g = true)
    (hdec : decodeFrame (encodeFrame g) w' h' = some d) (hi : i < w * h) (hi' : i < w' * h') :
    ∃ p, pixelAt g (wordColumn w i) (wordRow w i) = some p ∧
      pixelAt d (wordColumn w' i) (wordRow w' i) = some (truncated p) := by
  obtain ⟨hx, hy, hindex⟩ := wordColumn_wordRow_of_lt hi
  obtain ⟨p, hp⟩ := pixelAt_of_shape hshape hx hy
  obtain ⟨hlow, hhigh⟩ := read_encodeFrame hshape hx hp
  rw [hindex] at hlow hhigh
  obtain ⟨b0, b1, h0, h1, hd⟩ := pixelAt_decodeFrame hdec hi'
  cases hlow.symm.trans h0
  cases hhigh.symm.trans h1
  refine ⟨p, hp, ?_⟩
  rw [hd, joinBytes_bytes, reconstruct_quantize_eq_truncated]

/-- Settles O44: the length check and MAX_PIXELS see only the product of the dimensions, so the encoded frame decodes. -/
theorem otherDimensionsRearrangeTheFrame : Obligations.OtherDimensionsRearrangeTheFrame := by
  intro s t t' g hsrc hencf hfault hrun' hconfig' hprod hstream'
  obtain ⟨-, ⟨g', hsrc', hw, hh, hallowed, hshape⟩, rfl⟩ := execEncf_succeeds_iff.mp ⟨hencf, hfault⟩
  cases hsrc.symm.trans hsrc'
  have hstream : t'.stream = some (encodeFrame g) := by simp [hstream', writeOutputs, hsrc]
  have hpos : 0 < t'.cfgW * t'.cfgH := hprod ▸ Nat.mul_pos hw hh
  have hallowed' : frameAllowed t'.config t'.cfgW t'.cfgH = true :=
    frameAllowed_of_mul_eq hprod (hconfig' ▸ hallowed)
  have hlen : (encodeFrame g).length = frameBytes t'.cfgW t'.cfgH := by
    rw [length_encodeFrame hshape, frameBytes, frameBytes, hprod]
  obtain ⟨d, hdec⟩ := decodeFrame_of_wf (Memory.wf_ofBytes (gridBytes g)) hlen
  have hdecf : exec .decf t' = .next (t'.setDst (some d)) := execDecf_success hrun' hstream
    (Nat.pos_of_mul_pos_right hpos) (Nat.pos_of_mul_pos_left hpos) hallowed' hlen hdec
  exact ⟨t'.setDst (some d), d, hdecf, hrun'.1, rfl,
    fun i hi => pixelAt_decodeFrame_encodeFrame hshape hdec hi (hprod ▸ hi)⟩

/-! ## How a run stands -/

/-- A run is faulted, or refused, or has not ended (R129, R130, R142). -/
theorem faulted_or_refused_or_running (s : State) :
    (∃ r, s.fault = some r) ∨ (s.fault = none ∧ s.refused = true) ∨ s.Running := by
  cases hfault : s.fault with
  | some r => exact .inl ⟨r, rfl⟩
  | none =>
    cases hrefused : s.refused with
    | true => exact .inr (.inl ⟨rfl, rfl⟩)
    | false => exact .inr (.inr ⟨hfault, hrefused⟩)

section
variable {s : State} (hrun : s.Running)
include hrun

/-- With a command next, a run goes on unless it is stuck on that command (R142). -/
theorem runEnd_of_command_next {c : Command} {rest : List HostInput} (hin : s.inputs = .command c :: rest) :
    runEnd s = if (decode c).any (stuckOn s) then some .stuck else none := by
  rw [runEnd_of_running hrun, hin]

/-- With no command next, a run goes on as long as the plan has a command before its next reset (R142). -/
theorem runEnd_of_no_command_next (hin : ∀ c rest, s.inputs ≠ .command c :: rest) :
    runEnd s = if (actionsOfThisRun s.inputs).any HostInput.isCommand then none else some .successful := by
  rw [runEnd_of_running hrun]
  split
  case h_1 c rest heq => exact absurd heq (hin c rest)
  case h_2 => rfl

/-- A run of a running state is neither faulted nor refused. -/
theorem runEnd_cases_of_running : runEnd s = none ∨ runEnd s = some .stuck ∨ runEnd s = some .successful := by
  by_cases hin : ∃ c rest, s.inputs = .command c :: rest
  · obtain ⟨c, rest, hin⟩ := hin
    rw [runEnd_of_command_next hrun hin]
    split <;> simp
  · rw [runEnd_of_no_command_next hrun fun c rest h => hin ⟨c, rest, h⟩]
    split <;> simp

/-- A run is stuck on the command that is next, and on no other (R7, R142). -/
theorem runEnd_eq_stuck_iff_of_running :
    runEnd s = some .stuck ↔
      ∃ c rest, s.inputs = .command c :: rest ∧ ∃ i, decode c = some i ∧ stuckOn s i = true := by
  by_cases hin : ∃ c rest, s.inputs = .command c :: rest
  · obtain ⟨c, rest, hin⟩ := hin
    rw [runEnd_of_command_next hrun hin]
    simp [hin, Option.any_eq_true]
  · rw [runEnd_of_no_command_next hrun fun c rest h => hin ⟨c, rest, h⟩]
    constructor
    · split <;> simp
    · rintro ⟨c, rest, h, -⟩
      exact absurd ⟨c, rest, h⟩ hin

/-- A run is successful when the plan has no command before its next reset, hence none next (R142). -/
theorem runEnd_eq_successful_iff_of_running :
    runEnd s = some .successful ↔ ¬ (actionsOfThisRun s.inputs).any HostInput.isCommand = true := by
  by_cases hin : ∃ c rest, s.inputs = .command c :: rest
  · obtain ⟨c, rest, hin⟩ := hin
    have hnext : (actionsOfThisRun s.inputs).any HostInput.isCommand = true :=
      (any_isCommand_actionsOfThisRun _).mpr ⟨[], c, rest, hin, List.not_mem_nil⟩
    rw [runEnd_of_command_next hrun hin]
    split <;> simp [hnext]
  · rw [runEnd_of_no_command_next hrun fun c rest h => hin ⟨c, rest, h⟩]
    split <;> simp [*]

end

theorem runEnd_eq_faulted_iff (s : State) : runEnd s = some .faulted ↔ s.fault ≠ none := by
  obtain ⟨r, hfault⟩ | ⟨hfault, hrefused⟩ | hrun := faulted_or_refused_or_running s
  · simp [runEnd_of_fault hfault, hfault]
  · simp [runEnd_of_refused hfault hrefused, hfault]
  · obtain h | h | h := runEnd_cases_of_running hrun <;> simp [h, hrun.1]

/-- Refused shows unless the run is also faulted, which the invariant rules out (R129, R130). -/
theorem runEnd_eq_refused_iff {s : State} (hone : s.fault = none ∨ s.refused = false) :
    runEnd s = some .refused ↔ s.refused = true := by
  obtain ⟨r, hfault⟩ | ⟨hfault, hrefused⟩ | hrun := faulted_or_refused_or_running s
  · have hrefused : s.refused = false := hone.resolve_left (by simp [hfault])
    simp [runEnd_of_fault hfault, hrefused]
  · simp [runEnd_of_refused hfault hrefused, hrefused]
  · obtain h | h | h := runEnd_cases_of_running hrun <;> simp [h, hrun.2]

/-- Stuck and successful are standings of a run that is neither faulted nor refused. -/
theorem running_of_runEnd {s : State} {e : RunEnd} (h : runEnd s = some e) (hfaulted : e ≠ .faulted)
    (hrefused : e ≠ .refused) : s.Running := by
  obtain ⟨r, hf⟩ | ⟨hf, hr⟩ | hrun := faulted_or_refused_or_running s
  · exact absurd (Option.some.inj (h.symm.trans (runEnd_of_fault hf))) hfaulted
  · exact absurd (Option.some.inj (h.symm.trans (runEnd_of_refused hf hr))) hrefused
  · exact hrun

/-- A standing other than faulted and refused is settled by its condition in a running state. -/
theorem runEnd_eq_iff_of_running {s : State} {e : RunEnd} {P : Prop} (hfaulted : e ≠ .faulted) (hrefused : e ≠ .refused)
    (h : s.Running → (runEnd s = some e ↔ P)) : runEnd s = some e ↔ s.Running ∧ P :=
  (and_iff_right_of_imp fun hend => running_of_runEnd hend hfaulted hrefused).symm.trans (and_congr_right h)

theorem runEnd_eq_successful_iff (s : State) :
    runEnd s = some .successful ↔ s.Running ∧ ∀ before c rest,
      s.inputs = before ++ .command c :: rest → HostInput.reset ∈ before := by
  have hplan : (¬ (actionsOfThisRun s.inputs).any HostInput.isCommand = true) ↔ ∀ before c rest,
      s.inputs = before ++ .command c :: rest → HostInput.reset ∈ before := by
    simp only [any_isCommand_actionsOfThisRun, not_exists, not_and, not_not]
  rw [← hplan]
  exact runEnd_eq_iff_of_running nofun nofun runEnd_eq_successful_iff_of_running

theorem runEnd_eq_stuck_iff (s : State) :
    runEnd s = some .stuck ↔ s.Running ∧
      ∃ c rest, s.inputs = .command c :: rest ∧ ∃ i, decode c = some i ∧ stuckOn s i = true :=
  runEnd_eq_iff_of_running nofun nofun runEnd_eq_stuck_iff_of_running

/-- A command is stuck when it decodes to a frame operation with its input there, over MAX_PIXELS (R7). -/
theorem exists_decode_stuckOn_iff (s : State) (c : Command) :
    (∃ i, decode c = some i ∧ stuckOn s i = true) ↔
      ((decode c = some .encf ∧ s.src ≠ none) ∨ (decode c = some .decf ∧ s.stream ≠ none)) ∧
        0 < s.cfgW ∧ 0 < s.cfgH ∧ ∃ n, s.config.maxPixels = some n ∧ n < s.cfgW * s.cfgH := by
  simp only [stuckOn_iff]
  constructor
  · rintro ⟨i, hdec, ⟨rfl, hsrc⟩ | ⟨rfl, hstream⟩, hover⟩
    · exact ⟨.inl ⟨hdec, hsrc⟩, hover⟩
    · exact ⟨.inr ⟨hdec, hstream⟩, hover⟩
  · rintro ⟨⟨hdec, hsrc⟩ | ⟨hdec, hstream⟩, hover⟩
    · exact ⟨.encf, hdec, .inl ⟨rfl, hsrc⟩, hover⟩
    · exact ⟨.decf, hdec, .inr ⟨rfl, hstream⟩, hover⟩

/-- Settles O52: each standing has its own equivalence; the invariant is needed for REFUSED alone, which a fault would hide. -/
theorem runsEndInOneOfThreeWays : Obligations.RunsEndInOneOfThreeWays := by
  intro s hi
  refine ⟨runEnd_eq_faulted_iff s, runEnd_eq_refused_iff hi.oneEnd, ?_, ?_⟩
  · rw [runEnd_eq_successful_iff, State.Running, and_assoc]
  · simp only [runEnd_eq_stuck_iff, exists_decode_stuckOn_iff, State.Running, and_assoc]

/-! ## When a command has a step -/

@[simp] theorem stuckOn_setInputs (s : State) (rest : List HostInput) (i : Instr) :
    stuckOn (s.setInputs rest) i = stuckOn s i := by
  cases i <;> rfl

section
variable {s : State} (hrun : s.Running)
include hrun

/-- A stuck operation stops at the MAX_PIXELS check (R7). -/
theorem exec_of_stuckOn {i : Instr} (hstuck : stuckOn s i = true) : exec i s = .fault .frameTooLarge := by
  obtain ⟨hinput, -, -, n, hn, hlt⟩ := (stuckOn_iff s i).mp hstuck
  obtain ⟨hencf, hdecf⟩ := framesOverMaxPixelsAreStuck s n hrun hn hlt
  obtain ⟨rfl, hsrc⟩ | ⟨rfl, hstream⟩ := hinput
  · obtain ⟨g, hsrc⟩ := Option.ne_none_iff_exists'.mp hsrc
    exact hencf g hsrc
  · obtain ⟨m, hstream⟩ := Option.ne_none_iff_exists'.mp hstream
    exact hdecf m hstream

/-- ENCF that is not stuck has a step: one of its faults, or the encoded frame (R127). -/
theorem execEncf_steps (hstuck : ¬ stuckOn s .encf = true) : ∃ t, execEncf s = .next t := by
  cases hsrc : s.src with
  | none => exact ⟨_, execEncf_of_absent hrun hsrc⟩
  | some g =>
    by_cases hzero : s.cfgW = 0 ∨ s.cfgH = 0
    · exact ⟨_, execEncf_of_zeroDimension hrun hsrc hzero⟩
    obtain ⟨hw, hh⟩ : 0 < s.cfgW ∧ 0 < s.cfgH := by omega
    have hallowed : frameAllowed s.config s.cfgW s.cfgH = true := by
      simpa [stuckOn, hsrc, hw.ne', hh.ne'] using hstuck
    by_cases hshape : hasShape s.cfgW s.cfgH g = true
    · exact ⟨_, execEncf_success hrun hsrc hw hh hallowed hshape⟩
    · exact ⟨_, execEncf_of_otherShape hrun hsrc hw hh hallowed hshape⟩

/-- DECF of a stream in canonical form that is not stuck has a step: one of its faults, or the decoded frame (R127). -/
theorem execDecf_steps (hwf : ∀ m, s.stream = some m → Memory.wf m = true) (hstuck : ¬ stuckOn s .decf = true) :
    ∃ t, execDecf s = .next t := by
  cases hstream : s.stream with
  | none => exact ⟨_, execDecf_of_absent hrun hstream⟩
  | some m =>
    by_cases hzero : s.cfgW = 0 ∨ s.cfgH = 0
    · exact ⟨_, execDecf_of_zeroDimension hrun hstream hzero⟩
    obtain ⟨hw, hh⟩ : 0 < s.cfgW ∧ 0 < s.cfgH := by omega
    have hallowed : frameAllowed s.config s.cfgW s.cfgH = true := by
      simpa [stuckOn, hstream, hw.ne', hh.ne'] using hstuck
    by_cases hlen : m.length = frameBytes s.cfgW s.cfgH
    · obtain ⟨d, hdec⟩ := decodeFrame_of_wf (hwf m hstream) hlen
      exact ⟨_, execDecf_success hrun hstream hw hh hallowed hlen hdec⟩
    · exact ⟨_, execDecf_of_otherLength hrun hstream hw hh hallowed hlen⟩

theorem exec_steps (hi : s.Inv) {i : Instr} (hstuck : ¬ stuckOn s i = true) : ∃ t, exec i s = .next t := by
  by_cases hencf : i = .encf
  · subst hencf
    exact execEncf_steps hrun hstuck
  by_cases hdecf : i = .decf
  · subst hdecf
    exact execDecf_steps hrun hi.streamWf hstuck
  obtain ⟨t, h, -⟩ := pixelOperationsNeverFault s i hrun hencf hdecf
  exact ⟨t, h⟩

variable {c : Command} {rest : List HostInput} (hin : s.inputs = .command c :: rest)
include hin

theorem step_of_stuckOn {i : Instr} (hdec : decode c = some i) (hstuck : stuckOn s i = true) :
    step s = .fault .frameTooLarge := by
  calc step s = exec i (s.setInputs rest) := stepPerformsTheDecodedCommand s c rest i hin hdec
    _ = .fault .frameTooLarge := exec_of_stuckOn (s := s.setInputs rest) hrun (by simpa using hstuck)

/-- A command of a running run that is not stuck has a step: the operation's, or the refusal of the word. -/
theorem step_of_not_stuckOn (hi : s.Inv) (hstuck : ∀ i, decode c = some i → ¬ stuckOn s i = true) :
    ∃ t, step s = .next t := by
  rw [step_eq_performInput hin]
  cases hdec : decode c with
  | none => exact ⟨_, performCommand_of_decode_none hdec (s := s.setInputs rest) hrun⟩
  | some i =>
    have hstuck' : ¬ stuckOn (s.setInputs rest) i = true := by simpa using hstuck i hdec
    obtain ⟨t, h⟩ := exec_steps (s := s.setInputs rest) hrun (hi.setInputs rest) hstuck'
    exact ⟨t, (performCommand_of_decode hdec _).trans h⟩

end

/-- Settles O45: a faulted, a refused and a stuck run each stop at the command; in a running state a command that does not
decode to a stuck operation has a step. -/
theorem commandsStepExactlyWhileTheRunGoesOn : Obligations.CommandsStepExactlyWhileTheRunGoesOn := by
  intro s c rest hi hin
  obtain ⟨r, hfault⟩ | ⟨hfault, hrefused⟩ | hrun := faulted_or_refused_or_running s
  · have hstep := step_command_of_fault hfault hin
    exact ⟨by simp [hstep, runEnd_of_fault hfault], fun hrun => absurd hrun.1 (by simp [hfault])⟩
  · have hstep := step_command_of_refused hfault hrefused hin
    exact ⟨by simp [hstep, runEnd_of_refused hfault hrefused], fun hrun => absurd hrun.2 (by simp [hrefused])⟩
  have hend := runEnd_of_command_next hrun hin
  by_cases hstuck : (decode c).any (stuckOn s) = true
  · obtain ⟨i, hdec, hstuckOn⟩ := (Option.any_eq_true ..).mp hstuck
    have hstep := step_of_stuckOn hrun hin hdec hstuckOn
    obtain ⟨hinput, -, -, hover⟩ := (stuckOn_iff s i).mp hstuckOn
    exact ⟨by simp [hstep, hend, hstuck], fun _ _ => ⟨hstep, i, hdec, hinput.imp And.left And.left, hover⟩⟩
  · obtain ⟨t, hstep⟩ := step_of_not_stuckOn hrun hin hi fun i hdec h =>
      hstuck ((Option.any_eq_true ..).mpr ⟨i, hdec, h⟩)
    exact ⟨by simp [hstep, hend, hstuck], fun _ hstop => absurd hstep (hstop t)⟩

end Sys2Proof.Machine
end

section
/-! PROOFS. The example words of the decoding table (spec/95_test_vectors.md §2.6): six are the encodings of what they
mean, and four meet a condition of R68. -/

namespace Sys2Proof

/-- Settles O5: a word with a meaning is an encoding, which decodes to what it encodes; each of the others meets a condition
of R68: an unused operand byte of D565, an unused operand bit of ENCF, a must-be-zero bit, a reserved op code. -/
theorem specWordsDecode : Obligations.SpecWordsDecode := by
  have hmeaning {c : Command} (i : Instr) (h : encode i = c) : decode c = some i := h ▸ decodeInvertsEncode i
  have hrefused {c : Command} (h : refusedByR68 c) : decode c = none := (refusedByR68_iff c).mp h
  refine ⟨hmeaning _ rfl, hmeaning _ rfl, hmeaning _ rfl, hmeaning _ rfl, hmeaning _ rfl, hmeaning _ rfl, ?_, ?_, ?_, ?_⟩
  · have hoperand : opField 0x2001FFFF#32 = 0b001#3 ∧ byte2Field 0x2001FFFF#32 ≠ 0x00#8 := by decide
    exact hrefused (.inr (.inr (.inr (.inl (hoperand.imp_left .inl)))))
  · have hoperand : opField 0x80000001#32 = 0b100#3 ∧ (0x80000001#32).extractLsb' 0 24 ≠ 0x000000#24 := by decide
    exact hrefused (.inr (.inr (.inr (.inr (hoperand.imp_left .inl)))))
  · have hzero : zeroField 0x01000000#32 ≠ 0b00000#5 := by decide
    exact hrefused (.inr (.inr (.inl hzero)))
  · have hreserved : opField 0xC0000000#32 = 0b110#3 := by decide
    exact hrefused (.inl hreserved)

end Sys2Proof
end
